-- ==== Sys2Proof/Word.lean ====
section
/-! DEFINITION. The machine word of the CORE: an unsigned byte (spec/00_scope.md R7, spec/10_state.md R20). -/

namespace Sys2Proof

/-- The value of one register or one memory cell: an unsigned integer in 0..255 (R7). -/
abbrev Byte := BitVec 8

/-- `v mod 256` as a byte: the mask of every register and memory write (R26, R52). -/
abbrev mask8 (v : Nat) : Byte := BitVec.ofNat 8 v

end Sys2Proof
end

