-- ==== Sys2Proof/Syntax.lean ====
section
/-! DEFINITION. The instructions of the CORE: one constructor per row of spec/opcode_table.json (spec/00_scope.md R3,
spec/30_encoding.md R86, R89). -/

namespace Sys2Proof

/-- The instruction formats of R81. -/
inductive Format where
  /-- Opcode only. -/
  | f0
  /-- Opcode and one register index. -/
  | fr
  /-- Opcode and two register indices. -/
  | frr
  /-- Opcode, register index and 8-bit immediate. -/
  | fri
  deriving DecidableEq, Repr

/-- An instruction with its operand bytes. A register operand is the whole byte, unmasked (R83): an index of 8 or
more is an instruction too, and its meaning raises RegisterRange. -/
inductive Instr where
  /-- R116: named by the table, without a dispatch entry. -/
  | nop
  /-- R117. -/
  | hlt
  /-- R130. -/
  | ldi (a imm : Byte)
  /-- R131. -/
  | prn (a : Byte)
  /-- R143. -/
  | mul (a b : Byte)
  /-- R142. -/
  | add (a b : Byte)
  /-- R162. -/
  | push (a : Byte)
  /-- R163. -/
  | pop (a : Byte)
  /-- R181. -/
  | call (a : Byte)
  /-- R182. -/
  | ret
  /-- R89: reserved constant without a handler; that it has no operands is PRESUMED (log 3). -/
  | ld
  /-- R89: reserved constant without a handler; that it has no operands is PRESUMED (log 3). -/
  | st
  /-- R89: reserved constant without a handler; that it has no operands is PRESUMED (log 3). -/
  | pra
  deriving DecidableEq, Repr

end Sys2Proof
end

