-- ==== Sys2Proof/Decode.lean ====
section
/-! DEFINITION. Decoding (spec/30_encoding.md R80 to R91): an exact match on the whole opcode byte; and after it the
encoder, from the same table. -/

namespace Sys2Proof

/-- Why the decoder rejects bytes. -/
inductive DecodeReject where
  /-- The opcode byte is no row of the opcode table (R90). The step then raises UnknownInstruction. -/
  | unknownOpcode (opcode : Byte)
  /-- Fewer than the three bytes every fetch reads (R82). Not reached by a step, whose fetch has them. -/
  | tooFewBytes (given : Nat)
  deriving DecidableEq, Repr

/-- The instruction that the latched bytes `opcode`, `a`, `b` stand for (R85, R86). Unused operand bytes are dropped
(R94). `0x00` is NOP, which has a name but no dispatch entry (R89).
PRESUMED (log 3): the values of LD, ST and PRA come from general knowledge (spec/93_implementation_defined.md G3), and
that they have no operands is presumed too. -/
def decode (opcode a b : Byte) : Except DecodeReject Instr :=
  match opcode with
  | 0x00#8 => .ok .nop
  | 0x01#8 => .ok .hlt
  | 0x82#8 => .ok (.ldi a b)
  | 0x47#8 => .ok (.prn a)
  | 0xA2#8 => .ok (.mul a b)
  | 0xA0#8 => .ok (.add a b)
  | 0x45#8 => .ok (.push a)
  | 0x46#8 => .ok (.pop a)
  | 0x50#8 => .ok (.call a)
  | 0x11#8 => .ok .ret
  | 0x83#8 => .ok .ld
  | 0x84#8 => .ok .st
  | 0x48#8 => .ok .pra
  | _ => .error (.unknownOpcode opcode)

/-- The instruction at the head of a byte sequence. The fetch always reads three bytes, whatever the opcode (R82). -/
def decodeBytes : List Byte → Except DecodeReject Instr
  | opcode :: a :: b :: _ => decode opcode a b
  | bytes => .error (.tooFewBytes bytes.length)

/-- Byte `k` of a word whose bit 0 is the least significant bit of the first byte. -/
def tableByte (w k : Nat) : Byte := BitVec.ofNat 8 (w / 2 ^ (8 * k))

/-- The low `nbits` bits of a table word; every bit above them is 0. -/
def tableWord (nbits w : Nat) : Nat := w % 2 ^ nbits

/-- The instruction read from a word numbered as spec/opcode_table.json numbers it: the first byte in bits 7:0, the
second in bits 15:8, the third in bits 23:16, operand bytes above `nbits` zero. -/
def decodeTableWord (nbits w : Nat) : Option Instr :=
  let word := tableWord nbits w
  match decodeBytes [tableByte word 0, tableByte word 1, tableByte word 2] with
  | .ok i => some i
  | .error _ => none

/-- The opcode byte of an instruction (R86; R89 for NOP and the reserved constants). -/
def Instr.opcode : Instr → Byte
  | .nop => 0x00#8
  | .hlt => 0x01#8
  | .ldi _ _ => 0x82#8
  | .prn _ => 0x47#8
  | .mul _ _ => 0xA2#8
  | .add _ _ => 0xA0#8
  | .push _ => 0x45#8
  | .pop _ => 0x46#8
  | .call _ => 0x50#8
  | .ret => 0x11#8
  | .ld => 0x83#8
  | .st => 0x84#8
  | .pra => 0x48#8

/-- The format of an instruction (R81, and R86's column).
PRESUMED (log 3): F0 for LD, ST and PRA. R81 lists them in no format and the source gives them no arity
(spec/91_not_in_source.md N6); F0 and length 1 are what their rows of spec/opcode_table.json have, marked there as
general knowledge, "only because the byte executes nothing". -/
def Instr.format : Instr → Format
  | .nop => .f0
  | .hlt => .f0
  | .ldi _ _ => .fri
  | .prn _ => .fr
  | .mul _ _ => .frr
  | .add _ _ => .frr
  | .push _ => .fr
  | .pop _ => .fr
  | .call _ => .fr
  | .ret => .f0
  | .ld => .f0
  | .st => .f0
  | .pra => .f0

/-- The length in bytes of a format (R81). -/
def Format.length : Format → Nat
  | .f0 => 1
  | .fr => 2
  | .frr => 3
  | .fri => 3

/-- The operand bytes of an instruction, in byte order (R92).
PRESUMED (log 3): none for LD, ST and PRA, as for their format. -/
def Instr.operands : Instr → List Byte
  | .nop => []
  | .hlt => []
  | .ldi a imm => [a, imm]
  | .prn a => [a]
  | .mul a b => [a, b]
  | .add a b => [a, b]
  | .push a => [a]
  | .pop a => [a]
  | .call a => [a]
  | .ret => []
  | .ld => []
  | .st => []
  | .pra => []

/-- The bytes of an instruction at ascending addresses: opcode, then operands (R80). One byte for LD, ST and PRA is
PRESUMED (log 3). -/
def encode (i : Instr) : List Byte := i.opcode :: i.operands

end Sys2Proof
end

