-- ==== Sys2Proof/Config.lean ====
section
/-! DEFINITION. The fixed parameters of the CORE (spec/00_scope.md R6). The spec leaves no value open but the
loaded program, which is the argument of `load`, so there is no free value here. -/

namespace Sys2Proof.Config

/-- `MEM_SIZE` (R6): the number of memory cells; addresses are `0 <= address < 256`. -/
abbrev memSize : Nat := 256

/-- `NREGS` (R6): the number of general registers. -/
abbrev numRegs : Nat := 8

/-- `SP_INDEX` (R6): the register that is the stack pointer. -/
abbrev spIndex : Fin numRegs := 7

/-- `SP_RESET` (R6). -/
abbrev spReset : Byte := 0xF4#8

/-- `PC_RESET` (R6). -/
abbrev pcReset : Nat := 0

/-- `LOAD_BASE` (R6): where the program image is placed. -/
abbrev loadBase : Nat := 0

end Sys2Proof.Config
end

