-- ==== Sys2Proof/Machine/State.lean ====
section
/-! DEFINITION. The whole state of the CORE as plain data (spec/10_state.md R38), the reasons a step can stop, and the
state after reset (spec/70_reset_and_hazards.md R240). -/

namespace Sys2Proof.Machine

/-- The cause of a fault (spec/60_exceptions.md R200). -/
inductive Cause where
  /-- R201: the opcode byte has no dispatch entry. -/
  | unknownInstruction
  /-- R204: an ALU call with a tag other than ADD or MUL. -/
  | unsupportedAluOp
  /-- R202: a memory access at an address of 256 or more. -/
  | memoryRange
  /-- R203: a register index of 8 or more. -/
  | registerRange
  deriving DecidableEq, Repr

/-- The fault record of R33. -/
structure FaultRecord where
  cause : Cause
  /-- `pc` at the start of the faulting step. -/
  pc : Nat
  /-- The opcode byte fetched in the faulting step, or none where the fetch of it faulted. -/
  opcode : Option Byte
  /-- The offending opcode, address, register index or operation tag. -/
  info : Nat
  deriving DecidableEq, Repr

/-- The control state of R30. -/
inductive Status where
  | running
  | halted
  | faulted (r : FaultRecord)
  deriving DecidableEq, Repr

/-- Memory as the cells that differ from the reset contents, addresses strictly rising (log 14). Its operations are in
Machine/Ops.lean. -/
abbrev Memory := List Host.Cell

/-- The architectural state (R38). -/
structure State where
  /-- The 256 cells (R35). -/
  mem : Memory
  /-- R0..R7 (R20); R7 is the stack pointer (R22). -/
  regs : Vector Byte Config.numRegs
  /-- The program counter (R28): a natural number that does not wrap. -/
  pc : Nat
  /-- The control state (R30) with the fault record (R33). -/
  status : Status
  /-- The output log, oldest byte first (R34). -/
  out : List Byte
  deriving DecidableEq, Repr

/-- Why a step answers no next state. The CORE's own four faults are not here: each is TAKEN, as the next state whose
status is `faulted` (R208, log 1). -/
inductive Fault where
  /-- Raised by `step` alone, in a state that is already Halted: "In `Halted` or `Faulted` the CORE has no step"
  (R110). Safe: the machine stops there too. -/
  | runOverHalted
  /-- Raised by `step` alone, in a state that is already Faulted (R110, R209). Safe: the machine stops there too. -/
  | runOverFaulted (r : FaultRecord)
  deriving DecidableEq, Repr

/-- What the model gives no meaning. -/
inductive Refusal where
  /-- Reserved for an arm of `exec` without a meaning; no arm uses it. Safe: no run goes on. -/
  | notModelled (mnemonic : String)
  /-- Raised by `load` alone, for a program of more than 256 bytes: the run does not start (R242, log 11). Safe: no
  state exists for such a load. -/
  | programTooLong (length : Nat)
  deriving DecidableEq, Repr

/-- The state at "engine construction", with no program placed (R240, R21, R28, R30, R34, R35). -/
def State.reset : State where
  mem := []
  regs := #v[0#8, 0#8, 0#8, 0#8, 0#8, 0#8, 0#8, Config.spReset]
  pc := Config.pcReset
  status := .running
  out := []

end Sys2Proof.Machine
end

