-- ==== Sys2Proof/Machine/Ops.lean ====
section
/-! DEFINITION. The named operations of the CORE: memory access (spec/20_memory.md), the stack helpers
(spec/43_stack.md), output, the program counter, and taking a fault (spec/60_exceptions.md R208). -/

namespace Sys2Proof.Machine

/-- What an unlisted address reads as: memory is "zero-initialized" (R35). -/
def Memory.unlisted : Byte := 0#8

/-- The byte at an address of the list. -/
def Memory.read : Memory → Nat → Byte
  | [], _ => Memory.unlisted
  | (b, w) :: m, a => if a = b then w else Memory.read m a

/-- `m` without its entries for `a`. -/
def Memory.erase (m : Memory) (a : Nat) : Memory := m.filter (fun c => c.1 ≠ a)

/-- `m` with the cell `c` before the first larger address. -/
def Memory.insert : Memory → Host.Cell → Memory
  | [], c => [c]
  | d :: m, c => if c.1 < d.1 then c :: d :: m else d :: Memory.insert m c

/-- `m` with the byte at `a` set to `v`; the value an unlisted address reads as is not listed. -/
def Memory.write (m : Memory) (a : Nat) (v : Byte) : Memory :=
  if v = Memory.unlisted then m.erase a else (m.erase a).insert (a, v)

/-- The canonical form: addresses strictly rising, all below 256, and no entry equal to what an unlisted address reads
as, so that equal memories are equal lists. -/
abbrev Memory.wf (m : Memory) : Prop :=
  m.Pairwise (fun c d => c.1 < d.1) ∧ ∀ c ∈ m, c.1 < Config.memSize ∧ c.2 ≠ Memory.unlisted

/-- The byte of memory at `x` (`mem[x]` of the spec's notation). -/
def State.byteAt (s : State) (x : Nat) : Byte := s.mem.read x

/-- `mem[x] <- v`. -/
def State.setByte (s : State) (x : Nat) (v : Byte) : State := { s with mem := s.mem.write x v }

/-- What `raise F(info)` carries (spec/00_scope.md section 4): the step's `pc` and opcode are added when the fault is
taken. -/
structure Raise where
  cause : Cause
  info : Nat
  deriving DecidableEq, Repr

/-- The cause codes of R200 (labels only, spec/92_eei_decisions.md D8). -/
def Cause.code : Cause → Nat
  | .unknownInstruction => 1
  | .unsupportedAluOp => 2
  | .memoryRange => 3
  | .registerRange => 4

/-- `MemRead(addr, 1)` (R51). -/
def memRead (addr : Nat) (s : State) : Except Raise Byte :=
  if addr < Config.memSize then .ok (s.byteAt addr) else .error ⟨.memoryRange, addr⟩

/-- `MemWrite(addr, 1, v)` (R52). -/
def memWrite (addr v : Nat) (s : State) : Except Raise State :=
  if addr < Config.memSize then .ok (s.setByte addr (mask8 v))
  else .error ⟨.memoryRange, addr⟩

/-- SP, which is R7 itself (R22). -/
def State.sp (s : State) : Byte := s.regs[Config.spIndex]

/-- A change of SP, which changes R7 (R22). -/
def State.setSp (s : State) (v : Byte) : State := { s with regs := s.regs.set Config.spIndex v }

/-- `push_value(v)` (R160): the decrement, modulo 256, comes before the write. -/
def pushValue (v : Nat) (s : State) : Except Raise State :=
  let t := s.setSp (s.sp - 1#8)
  memWrite t.sp.toNat v t

/-- `pop_value()` (R161): the read comes before the increment, modulo 256. -/
def popValue (s : State) : Except Raise (Byte × State) := do
  let v ← memRead s.sp.toNat s
  pure (v, s.setSp (s.sp + 1#8))

/-- `Emit(v)` (R132): the host accepts the event at once (R219, log 10). -/
def State.emit (s : State) (v : Byte) : State := { s with out := s.out ++ [v] }

/-- `pc <- pc + n`; no wrap (R28). -/
def State.advance (s : State) (n : Nat) : State := { s with pc := s.pc + n }

/-- `pc <- t` (R181, R182). -/
def State.jump (s : State) (t : Byte) : State := { s with pc := t.toNat }

/-- `status <- Halted` (R117): an explicit flag, not a process exit (R30). -/
def State.halt (s : State) : State := { s with status := .halted }

/-- Taking a fault (R208): `s` is the state at the start of the step, so every other write of the step is discarded.
There is no return from it (R209). -/
def takeFault (opcode : Option Byte) (r : Raise) (s : State) : State :=
  { s with status := .faulted ⟨r.cause, s.pc, opcode, r.info⟩ }

/-- UnknownInstruction (R201): raised by the decode for a byte without a dispatch entry. -/
def raiseUnknown (opcode : Byte) (s : State) : Host.Outcome State Fault Refusal :=
  .next (takeFault (some opcode) ⟨.unknownInstruction, opcode.toNat⟩ s)

/-- The end of a step that began in `s` (R114, R208): commit the handler's state, or take the fault it raised. -/
def finish (opcode : Byte) (s : State) : Except Raise State → Host.Outcome State Fault Refusal
  | .ok t => .next t
  | .error r => .next (takeFault (some opcode) r s)

end Sys2Proof.Machine
end

