-- ==== Sys2Proof/Machine/Operands.lean ====
section
/-! DEFINITION. The operand forms of the CORE: register operands (spec/10_state.md R26, spec/30_encoding.md R83) and
the immediate (R84). The implicit stack operand is in Machine/Ops.lean. -/

namespace Sys2Proof.Machine

/-- Register `j` of the file (R20). -/
def State.reg (s : State) (j : Fin 8) : Byte := s.regs[j]

/-- Register `j` set to `v`. -/
def State.setReg (s : State) (j : Fin 8) (v : Byte) : State := { s with regs := s.regs.set j v }

/-- `x[i]` (R26): the index is the whole operand byte, not masked. -/
def readReg (i : Byte) (s : State) : Except Raise Byte :=
  if h : i.toNat < 8 then .ok (s.reg ⟨i.toNat, h⟩) else .error ⟨.registerRange, i.toNat⟩

/-- `x[i] <- v` (R26). -/
def writeReg (i : Byte) (v : Nat) (s : State) : Except Raise State :=
  if h : i.toNat < 8 then .ok (s.setReg ⟨i.toNat, h⟩ (mask8 v)) else .error ⟨.registerRange, i.toNat⟩

/-- The value of an immediate operand byte: unsigned, as it stands (R84). -/
def immediate (b : Byte) : Nat := b.toNat

end Sys2Proof.Machine
end

