-- ==== Sys2Proof/Machine/Flags.lean ====
section
/-! DEFINITION. What an ALU operation reports. The CORE has no flags, condition codes or predicates (spec/10_state.md
R31): the ALU "returns nothing else: no flags, no carry, no overflow indication" (spec/42_alu.md R140), so the result
is the whole report. -/

namespace Sys2Proof.Machine

/-- The operation tag of an ALU call (R140). DESIGN CHOICE (log 13): the spec names only ADD and MUL; `other n` is any
further tag, so that the UnsupportedAluOp fault of R144 can be defined and proved unreachable. -/
inductive AluTag where
  | add
  | mul
  | other (tag : Nat)
  deriving DecidableEq, Repr

/-- The tag check and the result function of R141: the exact result, reduced modulo 256. An unsupported tag raises
UnsupportedAluOp (R144, R204). -/
def aluFunction : AluTag → Except Raise (Byte → Byte → Nat)
  | .add => .ok fun s1 s2 => (s1.toNat + s2.toNat) % 256
  | .mul => .ok fun s1 s2 => (s1.toNat * s2.toNat) % 256
  | .other tag => .error ⟨.unsupportedAluOp, tag⟩

end Sys2Proof.Machine
end

