-- ==== Sys2Proof/Machine/Alu.lean ====
section
/-! DEFINITION. The ALU and its instructions ADD and MUL (spec/42_alu.md). -/

namespace Sys2Proof.Machine

/-- `ALU(op, a, b)` (R141): tag check, then both sources (`a` first), then the write. -/
def alu (op : AluTag) (a b : Byte) (s : State) : Except Raise State := do
  let f ← aluFunction op
  let s1 ← readReg a s
  let s2 ← readReg b s
  writeReg a (f s1 s2) s

/-- ADD Ra, Rb (R142). -/
def execAdd (a b : Byte) (s : State) : Host.Outcome State Fault Refusal :=
  finish (Instr.add a b).opcode s do
    let t ← alu .add a b s
    pure (t.advance 3)

/-- MUL Ra, Rb (R143). -/
def execMul (a b : Byte) (s : State) : Host.Outcome State Fault Refusal :=
  finish (Instr.mul a b).opcode s do
    let t ← alu .mul a b s
    pure (t.advance 3)

end Sys2Proof.Machine
end

