-- ==== Sys2Proof/Machine/CallReturn.lean ====
section
/-! DEFINITION. CALL and RET (spec/44_call_return.md). -/

namespace Sys2Proof.Machine

/-- The return address of a CALL at the current `pc` (R180, R181). After a fetch `pc <= 253`, so it is at most 255. -/
def returnAddress (s : State) : Nat := s.pc + 2

/-- CALL Ra (R181): the target is read after the push, so `CALL R7` jumps to the SP from after the push. -/
def execCall (a : Byte) (s : State) : Host.Outcome State Fault Refusal :=
  finish (Instr.call a).opcode s do
    let t ← pushValue (returnAddress s) s
    let target ← readReg a t
    pure (t.jump target)

/-- RET (R182): any byte on top of the stack becomes the new `pc` (R183). -/
def execRet (s : State) : Host.Outcome State Fault Refusal :=
  finish Instr.ret.opcode s do
    let (target, t) ← popValue s
    pure (t.jump target)

end Sys2Proof.Machine
end

