-- ==== Sys2Proof/Machine/LoadOutput.lean ====
section
/-! DEFINITION. LDI and PRN (spec/41_load_and_output.md). -/

namespace Sys2Proof.Machine

/-- LDI Ra, imm (R130). -/
def execLdi (a imm : Byte) (s : State) : Host.Outcome State Fault Refusal :=
  finish (Instr.ldi a imm).opcode s do
    let t ← writeReg a (immediate imm) s
    pure (t.advance 3)

/-- PRN Ra (R131). -/
def execPrn (a : Byte) (s : State) : Host.Outcome State Fault Refusal :=
  finish (Instr.prn a).opcode s do
    let v ← readReg a s
    pure ((s.emit v).advance 2)

end Sys2Proof.Machine
end

