-- ==== Sys2Proof/Machine/Loop.lean ====
section
/-! DEFINITION. HLT, NOP and the reserved constants LD, ST, PRA (spec/40_execution_loop.md section 2 and 3,
spec/30_encoding.md R89). -/

namespace Sys2Proof.Machine

/-- HLT (R117): an explicit status; `pc` is not changed (spec/90_conflicts.md C1, log 8). -/
def execHlt (s : State) : Host.Outcome State Fault Refusal :=
  .next s.halt

/-- NOP (R116): it has no dispatch entry, so it raises UnknownInstruction (spec/90_conflicts.md C2, log 2). -/
def execNop (s : State) : Host.Outcome State Fault Refusal :=
  raiseUnknown Instr.nop.opcode s

/-- LD (R89): raises UnknownInstruction "identically to any undispatched byte". -/
def execLd (s : State) : Host.Outcome State Fault Refusal :=
  raiseUnknown Instr.ld.opcode s

/-- ST (R89): as LD. -/
def execSt (s : State) : Host.Outcome State Fault Refusal :=
  raiseUnknown Instr.st.opcode s

/-- PRA (R89): as LD. -/
def execPra (s : State) : Host.Outcome State Fault Refusal :=
  raiseUnknown Instr.pra.opcode s

end Sys2Proof.Machine
end

