-- ==== Sys2Proof/Machine/Stack.lean ====
section
/-! DEFINITION. PUSH and POP (spec/43_stack.md). -/

namespace Sys2Proof.Machine

/-- PUSH Ra (R162): the value is read before SP is decremented, so `PUSH R7` pushes the old SP. -/
def execPush (a : Byte) (s : State) : Host.Outcome State Fault Refusal :=
  finish (Instr.push a).opcode s do
    let v ← readReg a s
    let t ← pushValue v.toNat s
    pure (t.advance 2)

/-- POP Ra (R163): the register write comes after the increment, so `POP R7` leaves the popped value in SP. -/
def execPop (a : Byte) (s : State) : Host.Outcome State Fault Refusal :=
  finish (Instr.pop a).opcode s do
    let (v, t) ← popValue s
    let u ← writeReg a v.toNat t
    pure (u.advance 2)

end Sys2Proof.Machine
end

