-- ==== Sys2Proof/Machine/Fetch.lean ====
section
/-! DEFINITION. The fetch (spec/40_execution_loop.md R111), placing an instruction where the next step fetches it, and
the load (spec/70_reset_and_hazards.md R242). -/

namespace Sys2Proof.Machine

/-- The bytes latched by a fetch (R36); they live only within one step. -/
structure Latches where
  opcode : Byte
  a : Byte
  b : Byte
  deriving DecidableEq, Repr

/-- A fault of the fetch, with the opcode byte if it was read (R33, R202). -/
structure FetchFault where
  opcode : Option Byte
  raised : Raise
  deriving DecidableEq, Repr

/-- The fetch (R111): three reads, at `pc`, `pc + 1` and `pc + 2`, each range-checked, whatever the opcode (R82). -/
def fetch (s : State) : Except FetchFault Latches :=
  match memRead s.pc s with
  | .error r => .error ⟨none, r⟩
  | .ok opcode =>
    match memRead (s.pc + 1) s with
    | .error r => .error ⟨some opcode, r⟩
    | .ok a =>
      match memRead (s.pc + 2) s with
      | .error r => .error ⟨some opcode, r⟩
      | .ok b => .ok ⟨opcode, a, b⟩

/-- `bytes` written at `base`, `base + 1`, … -/
def Memory.place (m : Memory) (base : Nat) : List Byte → Memory
  | [] => m
  | v :: rest => Memory.place (m.write base v) (base + 1) rest

/-- The host's load before the first step (R242, R214): the bytes at address 0 of the reset state; more than 256 of
them have no place and the run does not start. -/
def load (program : List Byte) : Host.Outcome State Fault Refusal :=
  if program.length ≤ Config.memSize then
    .next { State.reset with mem := State.reset.mem.place Config.loadBase program }
  else .refused (.programTooLong program.length)

/-- Where a placed instruction lies: at `pc` if the fetch can read three bytes there, else at 0 (log 16). -/
def placedPc (pc : Nat) : Nat := if pc + 2 < Config.memSize then pc else 0

/-- `s` ready to fetch the table word `w` of `nbits` bits: three bytes at the `pc`, the machine running (log 16). -/
def placeWord (nbits w : Nat) (s : State) : State :=
  let word := tableWord nbits w
  { s with
    mem := s.mem.place (placedPc s.pc) [tableByte word 0, tableByte word 1, tableByte word 2]
    pc := placedPc s.pc
    status := .running }

end Sys2Proof.Machine
end

