-- ==== Sys2Proof/Machine/Step.lean ====
section
/-! DEFINITION. One step of the fetch-decode-execute loop (spec/40_execution_loop.md R110 to R114). -/

namespace Sys2Proof.Machine

/-- One step: only while Running (R110); fetch (R111), decode (R112), execute (R113), as one transition (R114). -/
def step (s : State) : Host.Outcome State Fault Refusal :=
  match s.status with
  | .halted => .fault .runOverHalted
  | .faulted r => .fault (.runOverFaulted r)
  | .running =>
    match fetch s with
    | .error f => .next (takeFault f.opcode f.raised s)
    | .ok l =>
      match decode l.opcode l.a l.b with
      | .error _ => raiseUnknown l.opcode s
      | .ok i => exec i s

/-- `s` with the table word placed so that the very next step fetches and runs exactly it. -/
def State.withFetchWord (s : State) (nbits w : Nat) : State := placeWord nbits w s

end Sys2Proof.Machine
end

