-- ==== Sys2Proof/WellFormed.lean ====
section
/-! DEFINITION. Well-formed instructions: what the assembly syntax of spec/30_encoding.md R92 can write. -/

namespace Sys2Proof

/-- A register operand that names one of R0..R7 (R83, R92). -/
def registerNamed (v : Byte) : Bool := v.toNat < Config.numRegs

/-- Every register operand names a register (R92). An immediate may be any byte (R84). DEDUCED: the spec has no word
for this; an instruction that is not well-formed still decodes and runs (it raises RegisterRange, R83). -/
def Instr.wellFormed : Instr → Bool
  | .nop => true
  | .hlt => true
  | .ldi a _ => registerNamed a
  | .prn a => registerNamed a
  | .mul a b => registerNamed a && registerNamed b
  | .add a b => registerNamed a && registerNamed b
  | .push a => registerNamed a
  | .pop a => registerNamed a
  | .call a => registerNamed a
  | .ret => true
  | .ld => true
  | .st => true
  | .pra => true

/-- The instruction has an entry in the dispatch table (R86): all but NOP and the reserved constants (R89). -/
def Instr.dispatched : Instr → Bool
  | .nop => false
  | .hlt => true
  | .ldi _ _ => true
  | .prn _ => true
  | .mul _ _ => true
  | .add _ _ => true
  | .push _ => true
  | .pop _ => true
  | .call _ => true
  | .ret => true
  | .ld => false
  | .st => false
  | .pra => false

end Sys2Proof
end

