-- ==== Sys2Proof/Safety.lean ====
section
/-! DEFINITION. What counts as a safe run of the CORE, what the host observes of it, and the words the statements of
Certificates/ are written in. -/

namespace Sys2Proof.Machine

/-- The nine opcode bytes with a dispatch entry (spec/30_encoding.md R86). -/
def dispatchTable : List Byte := [0x01#8, 0x82#8, 0x47#8, 0xA2#8, 0xA0#8, 0x45#8, 0x46#8, 0x50#8, 0x11#8]

/-- The opcode bytes whose operand `a` is used as a register index (spec/60_exceptions.md R203). -/
def checksOperandA : List Byte := [0x82#8, 0x47#8, 0xA2#8, 0xA0#8, 0x45#8, 0x46#8, 0x50#8]

/-- The opcode bytes whose operand `b` is used as a register index (R203). -/
def checksOperandB : List Byte := [0xA2#8, 0xA0#8]

/-- The fault of a running step by the priority list of R207, read from the bytes alone; none where none applies. -/
def expectedFault (s : State) : Option FaultRecord :=
  let opcode := s.byteAt s.pc
  let a := s.byteAt (s.pc + 1)
  let b := s.byteAt (s.pc + 2)
  if 256 ≤ s.pc then some ⟨.memoryRange, s.pc, none, s.pc⟩
  else if 256 ≤ s.pc + 1 then some ⟨.memoryRange, s.pc, some opcode, s.pc + 1⟩
  else if 256 ≤ s.pc + 2 then some ⟨.memoryRange, s.pc, some opcode, s.pc + 2⟩
  else if opcode ∉ dispatchTable then some ⟨.unknownInstruction, s.pc, some opcode, opcode.toNat⟩
  else if opcode ∈ checksOperandA ∧ 8 ≤ a.toNat then some ⟨.registerRange, s.pc, some opcode, a.toNat⟩
  else if opcode ∈ checksOperandB ∧ 8 ≤ b.toNat then some ⟨.registerRange, s.pc, some opcode, b.toNat⟩
  else none

/-- A state no fault has been taken in. A safe run is one all of whose states are (spec/70_reset_and_hazards.md R244,
R245: a clean end is Halted). -/
def State.safe (s : State) : Prop := ∀ r, s.status ≠ .faulted r

/-- `t` comes after some number of steps from `s` (a run, R115, read from any state). -/
inductive Reaches (s : State) : State → Prop where
  | refl : Reaches s s
  | next {t u : State} : Reaches s t → step t = .next u → Reaches s u

/-- The result the host is told of, once `status` leaves Running (spec/60_exceptions.md R214, R216). -/
def State.result (s : State) : Option Status :=
  match s.status with
  | .running => none
  | ended => some ended

/-- The observation of an ended run (R245). -/
structure Observation where
  status : Status
  pc : Nat
  regs : List Byte
  mem : List Byte
  out : List Byte
  deriving DecidableEq, Repr

/-- `(status, pc, reg[0..7], mem[0..255], out)` (R245). -/
def State.observe (s : State) : Observation where
  status := s.status
  pc := s.pc
  regs := s.regs.toList
  mem := (List.range 256).map s.byteAt
  out := s.out

/-- A fault record that the machine can have written (R200 to R207). UnsupportedAluOp is unreachable (R204). -/
def FaultRecord.Explained (r : FaultRecord) : Prop :=
  match r.cause with
  | .unknownInstruction => r.pc ≤ 253 ∧ ∃ op, r.opcode = some op ∧ op ∉ dispatchTable ∧ r.info = op.toNat
  | .unsupportedAluOp => False
  | .memoryRange => 254 ≤ r.pc ∧ r.pc ≤ 256 ∧ r.info = 256 ∧ (r.opcode = none ↔ r.pc = 256)
  | .registerRange => r.pc ≤ 253 ∧ (∃ op ∈ checksOperandA, r.opcode = some op) ∧ 8 ≤ r.info ∧ r.info ≤ 255

/-- What every reachable state meets: memory in canonical form, `pc` in 0..256 (R28), and a fault record, if there is
one, that the fault rules explain. -/
structure StateInv (s : State) : Prop where
  memory : s.mem.wf
  pcRange : s.pc ≤ 256
  fault : ∀ r, s.status = .faulted r → r.Explained

/-- The fetch of a running `s` is in range and latches these bytes (R111). -/
def Fetches (s : State) (opcode a b : Byte) : Prop :=
  s.status = .running ∧ s.pc ≤ 253 ∧
    s.byteAt s.pc = opcode ∧ s.byteAt (s.pc + 1) = a ∧ s.byteAt (s.pc + 2) = b

/-- The outcome takes the fault `r` (R208). -/
def TakesFault (o : Host.Outcome State Fault Refusal) (r : FaultRecord) : Prop :=
  ∃ t, o = .next t ∧ t.status = .faulted r

/-- "MemoryRange from the fetch when `pc >= 254`", whatever the opcode (R111). -/
def HighFetchFaults (s : State) : Prop :=
  s.status = .running → 254 ≤ s.pc →
    ∃ r, TakesFault (step s) r ∧ r.cause = .memoryRange ∧ r.pc = s.pc

/-- Every byte of memory reads in `t` as in `s`. -/
def SameMemory (s t : State) : Prop := ∀ x, t.byteAt x = s.byteAt x

/-- Every byte of memory but the one at `x` reads in `t` as in `s`. -/
def SameMemoryBut (x : Nat) (s t : State) : Prop := ∀ y, y ≠ x → t.byteAt y = s.byteAt y

/-- Every register outside `changed` reads in `t` as in `s`. -/
def SameRegsBut (changed : List (Fin 8)) (s t : State) : Prop := ∀ j, j ∉ changed → t.reg j = s.reg j

end Sys2Proof.Machine
end

