-- ==== Sys2Proof/Certificates/Slice0/Obligations.lean ====
section
/-! DEFINITION. The statements about the CORE, for the provers. Each docstring names the rule of spec/ it rests on.
The instruction statements say of the state after a fault the record alone, and nothing of `pc` after HLT
(spec/70_reset_and_hazards.md R245). `FaultDiscardsTheStep` and the whole-machine rules also speak of the rest of the
state after a faulting step; there they rest on the spec's own decision D7 (log 7). -/

open Sys2Proof Sys2Proof.Machine

/-! ### Reset and load -/

/-- The reset values of R240: the register file (R21), `pc` 0 (R28), memory zero (R35), `Running` and an empty output
log. Derived: the last two are the spec's decision D17 (log 18, DEDUCED). -/
def Obligations.ResetStateHoldsTheStatedValues : Prop :=
  (∀ j : Fin 8, State.reset.reg j = if j = 7 then 0xF4#8 else 0#8) ∧ State.reset.sp.toNat = 244 ∧
    State.reset.pc = 0 ∧ (∀ x, State.reset.byteAt x = 0#8) ∧ State.reset.status = .running ∧ State.reset.out = []

/-- R242 (D14), R240: the bytes at address 0, every other cell 0, the rest as at reset; a program of more than 256
bytes is refused. Derived: the refusal is the spec's own decision D14, log 11. -/
def Obligations.LoadPlacesTheProgramAtZero : Prop :=
  ∀ P : List Byte,
    (P.length ≤ 256 → ∃ s, load P = .next s ∧
      (∀ (x : Nat) (h : x < P.length), s.byteAt x = P[x]) ∧ (∀ x, P.length ≤ x → s.byteAt x = 0#8) ∧
      s.mem.wf ∧ s.pc = 0 ∧ (∀ j : Fin 8, s.reg j = if j = 7 then 0xF4#8 else 0#8) ∧
      s.status = .running ∧ s.out = []) ∧
    (256 < P.length → load P = .refused (.programTooLong P.length))

/-- R241: the first step after a load fetches the bytes at 0, 1 and 2; an address past the program reads the reset
value 0 (R35). -/
def Obligations.FirstFetchReadsTheProgramAtZero : Prop :=
  ∀ (P : List Byte) (s : State), load P = .next s →
    s.pc = 0 ∧ fetch s = .ok ⟨s.byteAt 0, s.byteAt 1, s.byteAt 2⟩ ∧
      fetch s = .ok ⟨P.getD 0 0#8, P.getD 1 0#8, P.getD 2 0#8⟩

/-! ### The loop -/

/-- R112, R113: a step whose fetch is in range runs the instruction its bytes decode to, on the state as it stands:
`step` adds nothing around `exec`. No well-formedness is asked of the instruction. -/
def Obligations.StepRunsTheDecodedInstruction : Prop :=
  ∀ (s : State) (op a b : Byte) (i : Instr), Fetches s op a b → decode op a b = .ok i → step s = exec i s

/-- R110: a step exists only while Running; in Halted and Faulted the run is over. Derived: that every running state
answers a next state (a fault is taken, as R208 describes its entry) and that the end of a run shows as the outcomes
`runOverHalted` and `runOverFaulted` are the model's reading (log 1, DEDUCED). The model never refuses a step. -/
def Obligations.StepAnswersExactlyWhileRunning : Prop :=
  ∀ s : State,
    ((∃ t, step s = .next t) ↔ s.status = .running) ∧
    (s.status = .halted → step s = .fault .runOverHalted) ∧
    (∀ r, s.status = .faulted r → step s = .fault (.runOverFaulted r)) ∧
    ∀ r, step s ≠ .refused r

/-- R30: only HLT halts a run. Read from the bytes: a step ends Halted exactly if its fetch is in range and its opcode
byte is `0x01`. Derived: R30 carries the decisions D15 and D17. -/
def Obligations.OnlyHltHalts : Prop :=
  ∀ s t : State, step s = .next t → (t.status = .halted ↔ s.pc ≤ 253 ∧ s.byteAt s.pc = 0x01#8)

/-- R87: the PC delta of a dispatched instruction that does not transfer control is its length; the control-transfer
instructions set PC directly or terminate. Derived: that CALL's target is read after the push, so that CALL R7 jumps to
SP minus 1, is the spec's own inference in R181, and that SP wraps modulo 256 is its decision D2 (log 5, DEDUCED). -/
def Obligations.PcDeltaEqualsLength : Prop :=
  (∀ (i : Instr) (s : State), i.dispatched = true → i.wellFormed = true →
    i ≠ .hlt → i ≠ .ret → (∀ a, i ≠ .call a) →
      ∃ t, exec i s = .next t ∧ t.pc = s.pc + (encode i).length ∧ (encode i).length ≠ 1 ∧
        ((encode i).length = 3 ↔ i.opcode ∈ [0x82#8, 0xA2#8, 0xA0#8]) ∧
        ((encode i).length = 2 ↔ i.opcode ∈ [0x47#8, 0x45#8, 0x46#8])) ∧
  (∀ (a : Byte) (j : Fin 8) (s : State), a.toNat = j.val →
    (encode (.call a)).length = 2 ∧ ∃ t, exec (.call a) s = .next t ∧
      t.pc = (if j = 7 then s.sp - 1#8 else s.reg j).toNat ∧
      (s.pc ≤ 253 → (t.byteAt t.sp.toNat).toNat = s.pc + 2)) ∧
  (∀ s : State, (encode .ret).length = 1 ∧ ∃ t, exec .ret s = .next t ∧ t.pc = (s.byteAt s.sp.toNat).toNat) ∧
  (∀ s : State, (encode .hlt).length = 1 ∧ ∃ t, exec .hlt s = .next t ∧ t.status = .halted)

/-! ### Faults -/

/-- R202, R111: a step that starts at `pc >= 254` takes MemoryRange at the first address of 256 or more, whatever the
opcode, which is recorded if it was read. Derived: R202 carries the decisions D3 and D4. -/
def Obligations.FetchOutsideMemoryFaults : Prop :=
  ∀ s : State, s.status = .running →
    (s.pc = 254 → TakesFault (step s) ⟨.memoryRange, 254, some (s.byteAt 254), 256⟩) ∧
    (s.pc = 255 → TakesFault (step s) ⟨.memoryRange, 255, some (s.byteAt 255), 256⟩) ∧
    (256 ≤ s.pc → TakesFault (step s) ⟨.memoryRange, s.pc, none, s.pc⟩)

/-- R201: every byte outside the dispatch table takes UnknownInstruction, recorded with opcode and PC and not retried;
there are 247 such bytes. Conversely no dispatched byte does. Derived: that 0x00 is among them is the spec's decision D9
(log 2), the record's fields are D8 (log 12), and that the faulted state answers `runOverFaulted` is log 1, all
DEDUCED. -/
def Obligations.UndispatchedOpcodesFault : Prop :=
  (((List.range 256).map mask8).filter (fun op => op ∉ dispatchTable)).length = 247 ∧
  ∀ (s : State) (op a b : Byte), Fetches s op a b →
    (op ∉ dispatchTable → ∃ t, step s = .next t ∧
      t.status = .faulted ⟨.unknownInstruction, s.pc, some op, op.toNat⟩ ∧
      step t = .fault (.runOverFaulted ⟨.unknownInstruction, s.pc, some op, op.toNat⟩)) ∧
    (op ∈ dispatchTable → ∀ t r, step s = .next t → t.status = .faulted r → r.cause ≠ .unknownInstruction)

/-- R207, with R202 and R203: the fault of a running step is the first of the priority list, read from the bytes
alone, and a step none of whose conditions holds takes no fault. Derived: the order is the spec's decision D6. -/
def Obligations.StepFaultsInThePriorityOrder : Prop :=
  ∀ s : State, s.status = .running → ∃ t, step s = .next t ∧
    match expectedFault s with
    | some r => t.status = .faulted r
    | none => t.safe

/-- R208: a fault is precise. Derived: this is the spec's own decision D7, and speaks of the state after a
fault beyond its record; no claim about the hardware should rest on it (R245, log 7). -/
def Obligations.FaultDiscardsTheStep : Prop :=
  ∀ (s t : State) (r : FaultRecord), step s = .next t → t.status = .faulted r →
    t = { s with status := .faulted r } ∧ r.pc = s.pc ∧
      (r.opcode = none ∧ 256 ≤ s.pc ∨ r.opcode = some (s.byteAt s.pc) ∧ s.pc ≤ 255)

/-- R204, R144: an ALU call with another tag raises UnsupportedAluOp with the tag, and no step takes that fault.
Derived: the tags `AluTag.other n` and their info are the model's DESIGN CHOICE (log 13), and that no program can raise
the fault is the spec's own inference in R144. -/
def Obligations.UnsupportedAluOpIsUnreachable : Prop :=
  (∀ (n : Nat) (a b : Byte) (s : State), alu (.other n) a b s = .error ⟨.unsupportedAluOp, n⟩) ∧
  ∀ (s t : State) (r : FaultRecord), step s = .next t → t.status = .faulted r → r.cause ≠ .unsupportedAluOp

/-- R205: a dispatched instruction whose register operands name registers never faults, whatever it computes: overflow,
stack wrap, unbalanced CALL and RET, writes over code and reads of cells and registers never written go on. -/
def Obligations.WellFormedDispatchedInstructionsNeverFault : Prop :=
  ∀ (i : Instr) (s : State), i.dispatched = true → i.wellFormed = true → s.status = .running →
    ∃ t, exec i s = .next t ∧ (t.status = .running ∨ i = .hlt ∧ t.status = .halted)

/-! ### LDI, PRN -/

/-- R130, with its encoding (R86), its RegisterRange exception and the fetch's MemoryRange. Derived: the two exceptions
are the spec's decisions D5 and D4 (log 6, DEDUCED). -/
def Obligations.LdiLoadsTheImmediate : Prop :=
  ∀ (a imm : Byte) (s : State),
    encode (.ldi a imm) = [0x82#8, a, imm] ∧
    (Fetches s 0x82#8 a imm → step s = exec (.ldi a imm) s) ∧
    (∀ j : Fin 8, a.toNat = j.val → ∃ t, exec (.ldi a imm) s = .next t ∧
      t.reg j = imm ∧ t.pc = s.pc + 3 ∧
      SameRegsBut [j] s t ∧ SameMemory s t ∧ t.status = s.status ∧ t.out = s.out) ∧
    (8 ≤ a.toNat → TakesFault (exec (.ldi a imm) s) ⟨.registerRange, s.pc, some 0x82#8, a.toNat⟩) ∧
    HighFetchFaults s

/-- R131, R132 but for the host's rendering: the value is appended to the output log; the unused byte `b` is ignored.
Derived: that the host accepts at once is the spec's decision D13 (log 10, DEDUCED), RegisterRange and MemoryRange are D5
and D4 (log 6, DEDUCED). -/
def Obligations.PrnAppendsTheRegister : Prop :=
  ∀ (a : Byte) (s : State),
    encode (.prn a) = [0x47#8, a] ∧
    (∀ b, Fetches s 0x47#8 a b → step s = exec (.prn a) s) ∧
    (∀ j : Fin 8, a.toNat = j.val → ∃ t, exec (.prn a) s = .next t ∧
      t.out = s.out ++ [s.reg j] ∧ t.pc = s.pc + 2 ∧
      SameRegsBut [] s t ∧ SameMemory s t ∧ t.status = s.status) ∧
    (8 ≤ a.toNat → TakesFault (exec (.prn a) s) ⟨.registerRange, s.pc, some 0x47#8, a.toNat⟩) ∧
    HighFetchFaults s

/-! ### ALU -/

/-- R142: the sum modulo 256; both sources are read before the write, so `a = b` doubles the old value. Derived: modulo
256 is the spec's decision D1 (log 4, DEDUCED, unsafe against the reference), RegisterRange and MemoryRange are D5 and D4
(log 6, DEDUCED), and `a` is checked before `b` by D6 (log 7, DEDUCED). -/
def Obligations.AddWritesTheSumModulo256 : Prop :=
  ∀ (a b : Byte) (s : State),
    encode (.add a b) = [0xA0#8, a, b] ∧
    (Fetches s 0xA0#8 a b → step s = exec (.add a b) s) ∧
    (∀ j k : Fin 8, a.toNat = j.val → b.toNat = k.val → ∃ t, exec (.add a b) s = .next t ∧
      (t.reg j).toNat = ((s.reg j).toNat + (s.reg k).toNat) % 256 ∧ t.pc = s.pc + 3 ∧
      SameRegsBut [j] s t ∧ SameMemory s t ∧ t.status = s.status ∧ t.out = s.out) ∧
    (8 ≤ a.toNat → TakesFault (exec (.add a b) s) ⟨.registerRange, s.pc, some 0xA0#8, a.toNat⟩) ∧
    (a.toNat < 8 → 8 ≤ b.toNat →
      TakesFault (exec (.add a b) s) ⟨.registerRange, s.pc, some 0xA0#8, b.toNat⟩) ∧
    HighFetchFaults s

/-- R143: the product modulo 256; both sources are read before the write. Derived: modulo 256 is the spec's decision D1
(log 4, DEDUCED, unsafe against the reference), RegisterRange and MemoryRange are D5 and D4 (log 6, DEDUCED), and `a` is
checked before `b` by D6 (log 7, DEDUCED). -/
def Obligations.MulWritesTheProductModulo256 : Prop :=
  ∀ (a b : Byte) (s : State),
    encode (.mul a b) = [0xA2#8, a, b] ∧
    (Fetches s 0xA2#8 a b → step s = exec (.mul a b) s) ∧
    (∀ j k : Fin 8, a.toNat = j.val → b.toNat = k.val → ∃ t, exec (.mul a b) s = .next t ∧
      (t.reg j).toNat = ((s.reg j).toNat * (s.reg k).toNat) % 256 ∧ t.pc = s.pc + 3 ∧
      SameRegsBut [j] s t ∧ SameMemory s t ∧ t.status = s.status ∧ t.out = s.out) ∧
    (8 ≤ a.toNat → TakesFault (exec (.mul a b) s) ⟨.registerRange, s.pc, some 0xA2#8, a.toNat⟩) ∧
    (a.toNat < 8 → 8 ≤ b.toNat →
      TakesFault (exec (.mul a b) s) ⟨.registerRange, s.pc, some 0xA2#8, b.toNat⟩) ∧
    HighFetchFaults s

/-- R145 (derived from R141, whose modulo 256 is the spec's decision D1, log 4): for two different registers, `ADD Ra, Rb` and `ADD Rb, Ra` compute the same number, and so
do the two MULs; and adding or multiplying three registers gives the same number in either grouping. -/
def Obligations.AluIsCommutativeAndAssociative : Prop :=
  ∀ (op : AluTag) (a b c : Byte) (j k l : Fin 8) (s : State), op = .add ∨ op = .mul →
    a.toNat = j.val → b.toNat = k.val → c.toNat = l.val → j ≠ k → k ≠ l → j ≠ l →
      ∃ t u v w x, alu op a b s = .ok t ∧ alu op b a s = .ok u ∧ t.reg j = u.reg k ∧
        alu op a c t = .ok v ∧ alu op b c s = .ok w ∧ alu op a b w = .ok x ∧ v.reg j = x.reg j

/-! ### Stack -/

/-- R162: the register is read before SP is decremented, so `PUSH R7` stores the old SP; the byte goes to SP minus 1
modulo 256. Derived: the R7 case is the spec's own inference in R162, the wrap is its decision D2 (log 5, DEDUCED),
RegisterRange and MemoryRange are D5 and D4 (log 6, DEDUCED). -/
def Obligations.PushStoresBelowTheStackPointer : Prop :=
  ∀ (a : Byte) (s : State),
    encode (.push a) = [0x45#8, a] ∧
    (∀ b, Fetches s 0x45#8 a b → step s = exec (.push a) s) ∧
    (∀ j : Fin 8, a.toNat = j.val → ∃ t, exec (.push a) s = .next t ∧
      t.sp = s.sp - 1#8 ∧ t.byteAt (s.sp - 1#8).toNat = s.reg j ∧ t.pc = s.pc + 2 ∧
      SameRegsBut [7] s t ∧ SameMemoryBut (s.sp - 1#8).toNat s t ∧ t.status = s.status ∧ t.out = s.out) ∧
    (8 ≤ a.toNat → TakesFault (exec (.push a) s) ⟨.registerRange, s.pc, some 0x45#8, a.toNat⟩) ∧
    HighFetchFaults s

/-- R163: the register write comes after the increment of SP, so `POP R7` leaves the popped byte in SP. Derived: the R7
case is the spec's own inference in R163, the wrap is its decision D2 (log 5, DEDUCED), RegisterRange and MemoryRange are
D5 and D4 (log 6, DEDUCED). -/
def Obligations.PopLoadsTheTopOfStack : Prop :=
  ∀ (a : Byte) (s : State),
    encode (.pop a) = [0x46#8, a] ∧
    (∀ b, Fetches s 0x46#8 a b → step s = exec (.pop a) s) ∧
    (∀ j : Fin 8, a.toNat = j.val → ∃ t, exec (.pop a) s = .next t ∧
      t.reg j = s.byteAt s.sp.toNat ∧ (j ≠ 7 → t.sp = s.sp + 1#8) ∧ t.pc = s.pc + 2 ∧
      SameRegsBut [j, 7] s t ∧ SameMemory s t ∧ t.status = s.status ∧ t.out = s.out) ∧
    (8 ≤ a.toNat → TakesFault (exec (.pop a) s) ⟨.registerRange, s.pc, some 0x46#8, a.toNat⟩) ∧
    HighFetchFaults s

/-- R165 (C8), derived: PUSH then POP moves the register's value, and SP returns to its value unless the destination is
R7, where it ends as the moved value. -/
def Obligations.PushThenPopRoundTrip : Prop :=
  ∀ (a b : Byte) (j k : Fin 8) (s : State), a.toNat = j.val → b.toNat = k.val →
    ∃ t u, exec (.push a) s = .next t ∧ exec (.pop b) t = .next u ∧ u.reg k = s.reg j ∧
      (k ≠ 7 → u.sp = s.sp) ∧ (k = 7 → (u.sp = s.sp ↔ s.reg j = s.sp))

/-- R53, R160, R161: the stack helpers succeed at every SP, wrapping modulo 256: SP = 0 pushes at 255, SP = 255 pops
to 0. Derived: D2 and the spec's own inference in R53. -/
def Obligations.StackHelpersNeverRaise : Prop :=
  ∀ (s : State),
    (∀ v : Nat, ∃ t, pushValue v s = .ok t ∧ t.sp.toNat = (s.sp.toNat + 255) % 256 ∧
      (t.byteAt t.sp.toNat).toNat = v % 256 ∧ SameMemoryBut t.sp.toNat s t ∧ SameRegsBut [7] s t ∧
      t.pc = s.pc ∧ t.status = s.status ∧ t.out = s.out) ∧
    ∃ t, popValue s = .ok (s.byteAt s.sp.toNat, t) ∧ t.sp.toNat = (s.sp.toNat + 1) % 256 ∧
      SameMemory s t ∧ SameRegsBut [7] s t ∧ t.pc = s.pc ∧ t.status = s.status ∧ t.out = s.out

/-! ### CALL, RET -/

/-- R181: the return address `pc + 2` is pushed, then `pc` is the register's value as it stands after the push, so
`CALL R7` jumps to SP minus 1 modulo 256. After a fetch `pc <= 253`. Derived: the R7 case is the spec's own inference in
R181, the wrap is its decision D2 (log 5, DEDUCED), RegisterRange and MemoryRange are D5 and D4 (log 6, DEDUCED). -/
def Obligations.CallPushesTheReturnAddressAndJumps : Prop :=
  ∀ (a : Byte) (s : State),
    encode (.call a) = [0x50#8, a] ∧
    (∀ b, Fetches s 0x50#8 a b → step s = exec (.call a) s) ∧
    (∀ j : Fin 8, a.toNat = j.val → s.pc ≤ 253 → ∃ t, exec (.call a) s = .next t ∧
      t.sp = s.sp - 1#8 ∧ (t.byteAt (s.sp - 1#8).toNat).toNat = s.pc + 2 ∧
      t.pc = (if j = 7 then s.sp - 1#8 else s.reg j).toNat ∧
      SameRegsBut [7] s t ∧ SameMemoryBut (s.sp - 1#8).toNat s t ∧ t.status = s.status ∧ t.out = s.out) ∧
    (8 ≤ a.toNat → TakesFault (exec (.call a) s) ⟨.registerRange, s.pc, some 0x50#8, a.toNat⟩) ∧
    HighFetchFaults s

/-- R182: any byte on top of the stack becomes the new `pc`. Derived: that SP wraps modulo 256 is the spec's decision D2
(log 5, DEDUCED), and MemoryRange from the fetch is D4 (log 6, DEDUCED). -/
def Obligations.RetJumpsToThePoppedByte : Prop :=
  ∀ s : State,
    encode .ret = [0x11#8] ∧
    (∀ a b, Fetches s 0x11#8 a b → step s = exec .ret s) ∧
    (∃ t, exec .ret s = .next t ∧ t.pc = (s.byteAt s.sp.toNat).toNat ∧ t.sp = s.sp + 1#8 ∧
      SameRegsBut [7] s t ∧ SameMemory s t ∧ t.status = s.status ∧ t.out = s.out) ∧
    HighFetchFaults s

/-- R184, derived: after a CALL, a RET in any state with SP and the pushed cell as the CALL left them resumes at the
CALL's address plus 2, with SP as before the CALL. -/
def Obligations.CallThenReturnRoundTrip : Prop :=
  ∀ (a : Byte) (j : Fin 8) (s : State), a.toNat = j.val → s.pc ≤ 253 →
    ∃ t, exec (.call a) s = .next t ∧
      ∀ u : State, u.sp = t.sp → u.byteAt t.sp.toNat = t.byteAt t.sp.toNat →
        ∃ v, exec .ret u = .next v ∧ v.pc = s.pc + 2 ∧ v.sp = s.sp

/-! ### HLT, NOP and the reserved constants -/

/-- R117 but for `pc`, which claims must not rest on after HLT (R245, C1, log 8): the run is Halted and registers,
memory and output are unchanged; the operand bytes are ignored. -/
def Obligations.HltHaltsTheRun : Prop :=
  ∀ s : State,
    encode .hlt = [0x01#8] ∧
    (∀ a b, Fetches s 0x01#8 a b → step s = exec .hlt s) ∧
    (∃ t, exec .hlt s = .next t ∧ t.status = .halted ∧ SameRegsBut [] s t ∧ SameMemory s t ∧ t.out = s.out) ∧
    HighFetchFaults s

/-- R116 (D9, C2, log 2): NOP always takes UnknownInstruction. -/
def Obligations.NopTakesUnknownInstruction : Prop :=
  ∀ s : State,
    encode .nop = [0x00#8] ∧
    (∀ a b, Fetches s 0x00#8 a b → step s = exec .nop s) ∧
    TakesFault (exec .nop s) ⟨.unknownInstruction, s.pc, some 0x00#8, 0⟩ ∧
    HighFetchFaults s

/-- R89: LD, ST and PRA take UnknownInstruction as any undispatched byte does. Their values `0x83`, `0x84` and `0x48`
are PRESUMED (the spec's general knowledge G3, log 3). -/
def Obligations.ReservedConstantsTakeUnknownInstruction : Prop :=
  ∀ s : State,
    (∀ a b, Fetches s 0x83#8 a b → step s = exec .ld s) ∧
    (∀ a b, Fetches s 0x84#8 a b → step s = exec .st s) ∧
    (∀ a b, Fetches s 0x48#8 a b → step s = exec .pra s) ∧
    TakesFault (exec .ld s) ⟨.unknownInstruction, s.pc, some 0x83#8, 0x83⟩ ∧
    TakesFault (exec .st s) ⟨.unknownInstruction, s.pc, some 0x84#8, 0x84⟩ ∧
    TakesFault (exec .pra s) ⟨.unknownInstruction, s.pc, some 0x48#8, 0x48⟩

/-! ### Whole-machine rules (of a step that faults they rest on D7, log 7) -/

/-- The invariant of `StateInv` (memory in canonical form, R35; `pc` in 0..256, R28; a fault record the fault rules explain,
R33, R200 to R207) is kept by every step. -/
def Obligations.EveryStepKeepsTheInvariant : Prop :=
  ∀ s t : State, StateInv s → step s = .next t → StateInv t

/-- The state after reset meets the invariant. -/
def Obligations.ResetMeetsTheInvariant : Prop := StateInv State.reset

/-- Every state of every run of every loaded program meets the invariant, and the output log only grows along it. -/
def Obligations.RunsOfLoadedProgramsKeepTheInvariant : Prop :=
  ∀ (P : List Byte) (s t u : State), load P = .next s → Reaches s t → Reaches t u → StateInv t ∧ StateInv u ∧ t.out <+: u.out

/-- R133, R34 (derived): a step appends at most one byte to the output log, and exactly if it is a PRN that completes;
the byte is that PRN's register. A faulting step emits nothing. -/
def Obligations.OutputGrowsOnlyByPrn : Prop :=
  ∀ s t : State, step s = .next t →
    (∀ j : Fin 8, s.pc ≤ 253 → s.byteAt s.pc = 0x47#8 → (s.byteAt (s.pc + 1)).toNat = j.val →
      t.out = s.out ++ [s.reg j]) ∧
    ((254 ≤ s.pc ∨ s.byteAt s.pc ≠ 0x47#8 ∨ 8 ≤ (s.byteAt (s.pc + 1)).toNat) → t.out = s.out)

/-- R57, R59 (derived): only PUSH and CALL write memory, one byte each, at SP minus 1 modulo 256. -/
def Obligations.OnlyPushAndCallWriteMemory : Prop :=
  ∀ s t : State, step s = .next t →
    SameMemoryBut (s.sp - 1#8).toNat s t ∧
    ((254 ≤ s.pc ∨ s.byteAt s.pc ∉ [0x45#8, 0x50#8]) → SameMemory s t)

/-- R23, R29 (derived): a register changes only as the destination of LDI, ADD, MUL or POP, or as SP in PUSH, POP, CALL
and RET. -/
def Obligations.OnlyNamedRegistersChange : Prop :=
  ∀ (s t : State) (j : Fin 8), step s = .next t → t.reg j ≠ s.reg j → s.pc ≤ 253 ∧
    (s.byteAt s.pc ∈ [0x82#8, 0xA0#8, 0xA2#8, 0x46#8] ∧ (s.byteAt (s.pc + 1)).toNat = j.val ∨
      s.byteAt s.pc ∈ [0x45#8, 0x46#8, 0x50#8, 0x11#8] ∧ j = 7)

/-- R57, R56 (derived): a step depends on no byte of memory but the three it fetches and, for POP and RET, the one at
SP. Two states that agree on those and on everything else but memory take steps that agree on everything else but
memory, and no cell that was equal becomes different. -/
def Obligations.StepDependsOnlyOnTheBytesItReads : Prop :=
  ∀ s s' : State, s.status = .running → s'.status = .running → s.pc = s'.pc → s.out = s'.out →
    (∀ j : Fin 8, s.reg j = s'.reg j) →
    (∀ x, x < 256 → x = s.pc ∨ x = s.pc + 1 ∨ x = s.pc + 2 ∨
      x = s.sp.toNat ∧ s.byteAt s.pc ∈ [0x46#8, 0x11#8] → s.byteAt x = s'.byteAt x) →
    ∃ t t', step s = .next t ∧ step s' = .next t' ∧ t.status = t'.status ∧ t.pc = t'.pc ∧ t.out = t'.out ∧
      (∀ j : Fin 8, t.reg j = t'.reg j) ∧ ∀ x, s.byteAt x = s'.byteAt x → t.byteAt x = t'.byteAt x

/-- R62, R247 (derived): a PUSH onto the byte after its own two runs with its latched bytes, and the next fetch latches
the pushed byte as its opcode. -/
def Obligations.PushIsSeenByTheNextFetch : Prop :=
  ∀ (s : State) (a b : Byte) (j : Fin 8), Fetches s 0x45#8 a b → a.toNat = j.val →
    (s.sp - 1#8).toNat = s.pc + 2 → s.pc + 2 ≤ 253 →
      ∃ t l, step s = .next t ∧ t.pc = s.pc + 2 ∧ fetch t = .ok l ∧ l.opcode = s.reg j

/-! ### Registers and memory -/

/-- R22: SP is register 7: it reads as R7, a write of R7 is a write of SP, and a change of SP changes R7 alone. -/
def Obligations.StackPointerIsRegisterSeven : Prop :=
  ∀ s : State, s.sp = s.reg 7 ∧
    (∀ (a : Byte) (v : Nat), a.toNat = 7 → ∃ t, writeReg a v s = .ok t ∧ t.sp = mask8 v) ∧
    ∀ v : Byte, (s.setSp v).reg 7 = v ∧ SameRegsBut [7] s (s.setSp v)

/-- R26, R83: an index below 8 selects the register, unmasked, and any other raises RegisterRange with the index.
Derived: the fault is the spec's decision D5. -/
def Obligations.RegisterAccessChecksTheIndex : Prop :=
  ∀ (i : Byte) (v : Nat) (s : State),
    (∀ j : Fin 8, i.toNat = j.val → readReg i s = .ok (s.reg j) ∧
      ∃ t, writeReg i v s = .ok t ∧ (t.reg j).toNat = v % 256 ∧ SameRegsBut [j] s t ∧ SameMemory s t ∧
        t.pc = s.pc ∧ t.status = s.status ∧ t.out = s.out) ∧
    (8 ≤ i.toNat → readReg i s = .error ⟨.registerRange, i.toNat⟩ ∧
      writeReg i v s = .error ⟨.registerRange, i.toNat⟩)

/-- R51, R52, R60: a write in range is read back by every later read of the address and by no other; out of range both
raise MemoryRange with the address. Derived: the fault is the spec's decision D3. -/
def Obligations.MemoryReadsTheLatestWrite : Prop :=
  ∀ (x v : Nat) (s : State),
    (x < 256 → ∃ t, memWrite x v s = .ok t ∧ memRead x t = .ok (mask8 v) ∧
      (∀ y, y ≠ x → memRead y t = memRead y s) ∧
      (∀ w, ∃ u, memWrite x w t = .ok u ∧ memWrite x w s = .ok u)) ∧
    (256 ≤ x → memRead x s = .error ⟨.memoryRange, x⟩ ∧ memWrite x v s = .error ⟨.memoryRange, x⟩)

/-- R35 as the model holds it (log 14): memories in canonical form that read alike at all 256 addresses are equal. -/
def Obligations.EqualReadsMeanEqualMemories : Prop :=
  ∀ m n : Memory, m.wf → n.wf → (∀ x, x < 256 → m.read x = n.read x) → m = n

/-! ### Encoding -/

/-- R80, R86, R92: decoding the encoding of an instruction, whatever bytes follow, gives it back, with every operand at
every value. A fetch latches three bytes (R82). The values, format and length of LD, ST and PRA are PRESUMED (log 3),
here and in the three statements after this one. -/
def Obligations.DecodeInvertsEncode : Prop :=
  ∀ (i : Instr) (rest : List Byte), 3 ≤ (encode i ++ rest).length → decodeBytes (encode i ++ rest) = .ok i

/-- R85, R90: a byte sequence that decodes begins with the encoding of its instruction, and what the decoder rejects is
an opcode byte that is no encoding's first byte. -/
def Obligations.EncodeInvertsDecode : Prop :=
  ∀ op a b : Byte,
    (∀ i, decode op a b = .ok i → encode i = [op, a, b].take (encode i).length) ∧
    (∀ e, decode op a b = .error e → e = .unknownOpcode op ∧ ∀ i : Instr, i.opcode ≠ op)

/-- R91: the opcode alone determines the length, so no encoding is the beginning of another's. -/
def Obligations.EncodingsDetermineTheInstruction : Prop :=
  ∀ (i j : Instr) (r r' : List Byte), encode i ++ r = encode j ++ r' → i = j ∧ r = r'

/-- R94: an instruction ignores the fetched bytes past its length; their addresses must still be in range.
Derived: MemoryRange at `pc >= 254` is the spec's decisions D3 and D4 (log 6, DEDUCED), and one byte for LD, ST and PRA is
PRESUMED (log 3). -/
def Obligations.UnusedOperandBytesAreIgnored : Prop :=
  (∀ (op a b : Byte) (i : Instr), decode op a b = .ok i →
    ((encode i).length = 1 → ∀ a' b', decode op a' b' = .ok i) ∧
    ((encode i).length = 2 → ∀ b', decode op a b' = .ok i)) ∧
  ∀ s : State, HighFetchFaults s

/-- Words written out from the encodings of R86 and the scenarios of spec/95_test_vectors.md E1, E2. -/
def Obligations.SampleWordsDecode : Prop :=
  decode 0x82#8 0x00#8 0x08#8 = .ok (.ldi 0#8 8#8) ∧ decode 0x47#8 0x00#8 0x01#8 = .ok (.prn 0#8) ∧
  decode 0xA2#8 0x00#8 0x01#8 = .ok (.mul 0#8 1#8) ∧ decode 0xA0#8 0x00#8 0x01#8 = .ok (.add 0#8 1#8) ∧
  decode 0x45#8 0x03#8 0x46#8 = .ok (.push 3#8) ∧ decode 0x46#8 0x04#8 0x00#8 = .ok (.pop 4#8) ∧
  decode 0x50#8 0x01#8 0x47#8 = .ok (.call 1#8) ∧ decode 0x11#8 0x00#8 0x00#8 = .ok .ret ∧
  decode 0x01#8 0x00#8 0x00#8 = .ok .hlt ∧ decode 0xA1#8 0x00#8 0x00#8 = .error (.unknownOpcode 0xA1#8)

/-- The model's own (log 16): a word placed for the host is what the very next step runs, from every state, and every
register, the output log and every other byte of memory stay. -/
def Obligations.PlacedWordIsRunNext : Prop :=
  ∀ (s : State) (nbits w : Nat) (i : Instr), decodeTableWord nbits w = some i →
    step (s.withFetchWord nbits w) = exec i (s.withFetchWord nbits w) ∧
    (s.withFetchWord nbits w).out = s.out ∧ SameRegsBut [] s (s.withFetchWord nbits w) ∧
    (s.pc ≤ 253 → (s.withFetchWord nbits w).pc = s.pc ∧
      ∀ x, x < s.pc ∨ s.pc + 3 ≤ x → (s.withFetchWord nbits w).byteAt x = s.byteAt x)
end

