-- ==== Sys2Proof/Laws/Decode.lean ====
section
/-! SUPPORT. What the decoder can answer. -/

namespace Sys2Proof

/-- Inversion of the decoder: one case per row of the opcode table. -/
theorem decode_cases {op a b : Byte} {i : Instr} (h : decode op a b = .ok i) :
    i = .nop ∧ op = 0x00#8 ∨ i = .hlt ∧ op = 0x01#8 ∨ i = .ldi a b ∧ op = 0x82#8 ∨ i = .prn a ∧ op = 0x47#8 ∨
    i = .mul a b ∧ op = 0xA2#8 ∨ i = .add a b ∧ op = 0xA0#8 ∨ i = .push a ∧ op = 0x45#8 ∨ i = .pop a ∧ op = 0x46#8 ∨
    i = .call a ∧ op = 0x50#8 ∨ i = .ret ∧ op = 0x11#8 ∨ i = .ld ∧ op = 0x83#8 ∨ i = .st ∧ op = 0x84#8 ∨
    i = .pra ∧ op = 0x48#8 := by
  unfold decode at h
  split at h <;> cases h <;> simp

/-- The decoder's instruction carries the opcode byte it was decoded from. -/
theorem decode_opcode {op a b : Byte} {i : Instr} (h : decode op a b = .ok i) : i.opcode = op := by
  rcases decode_cases h with h | h | h | h | h | h | h | h | h | h | h | h | h <;> obtain ⟨rfl, rfl⟩ := h <;> rfl

/-- The only rejection of the three-byte decoder is an unknown opcode (R90). -/
theorem decode_error {op a b : Byte} {e : DecodeReject} (h : decode op a b = .error e) : e = .unknownOpcode op := by
  unfold decode at h
  split at h <;> cases h
  rfl

end Sys2Proof
end

