-- ==== Sys2Proof/Laws/State.lean ====
section
/-! SUPPORT. One lemma per field per update of State, so that no later proof unfolds a record update. -/

namespace Sys2Proof.Machine

variable (s : State)

@[simp] theorem State.setByte_mem (x : Nat) (v : Byte) : (s.setByte x v).mem = s.mem.write x v := rfl
@[simp] theorem State.setByte_regs (x : Nat) (v : Byte) : (s.setByte x v).regs = s.regs := rfl
@[simp] theorem State.setByte_pc (x : Nat) (v : Byte) : (s.setByte x v).pc = s.pc := rfl
@[simp] theorem State.setByte_status (x : Nat) (v : Byte) : (s.setByte x v).status = s.status := rfl
@[simp] theorem State.setByte_out (x : Nat) (v : Byte) : (s.setByte x v).out = s.out := rfl
@[simp] theorem State.setByte_reg (x : Nat) (v : Byte) (k : Fin 8) : (s.setByte x v).reg k = s.reg k := rfl
@[simp] theorem State.setByte_sp (x : Nat) (v : Byte) : (s.setByte x v).sp = s.sp := rfl

@[simp] theorem State.setSp_mem (v : Byte) : (s.setSp v).mem = s.mem := rfl
@[simp] theorem State.setSp_regs (v : Byte) : (s.setSp v).regs = s.regs.set 7 v := rfl
@[simp] theorem State.setSp_pc (v : Byte) : (s.setSp v).pc = s.pc := rfl
@[simp] theorem State.setSp_status (v : Byte) : (s.setSp v).status = s.status := rfl
@[simp] theorem State.setSp_out (v : Byte) : (s.setSp v).out = s.out := rfl
@[simp] theorem State.setSp_byteAt (v : Byte) (y : Nat) : (s.setSp v).byteAt y = s.byteAt y := rfl

@[simp] theorem State.setReg_mem (j : Fin 8) (v : Byte) : (s.setReg j v).mem = s.mem := rfl
@[simp] theorem State.setReg_regs (j : Fin 8) (v : Byte) : (s.setReg j v).regs = s.regs.set j v := rfl
@[simp] theorem State.setReg_pc (j : Fin 8) (v : Byte) : (s.setReg j v).pc = s.pc := rfl
@[simp] theorem State.setReg_status (j : Fin 8) (v : Byte) : (s.setReg j v).status = s.status := rfl
@[simp] theorem State.setReg_out (j : Fin 8) (v : Byte) : (s.setReg j v).out = s.out := rfl
@[simp] theorem State.setReg_byteAt (j : Fin 8) (v : Byte) (y : Nat) : (s.setReg j v).byteAt y = s.byteAt y := rfl

@[simp] theorem State.emit_mem (v : Byte) : (s.emit v).mem = s.mem := rfl
@[simp] theorem State.emit_regs (v : Byte) : (s.emit v).regs = s.regs := rfl
@[simp] theorem State.emit_pc (v : Byte) : (s.emit v).pc = s.pc := rfl
@[simp] theorem State.emit_status (v : Byte) : (s.emit v).status = s.status := rfl
@[simp] theorem State.emit_out (v : Byte) : (s.emit v).out = s.out ++ [v] := rfl
@[simp] theorem State.emit_byteAt (v : Byte) (y : Nat) : (s.emit v).byteAt y = s.byteAt y := rfl
@[simp] theorem State.emit_reg (v : Byte) (k : Fin 8) : (s.emit v).reg k = s.reg k := rfl
@[simp] theorem State.emit_sp (v : Byte) : (s.emit v).sp = s.sp := rfl

@[simp] theorem State.advance_mem (n : Nat) : (s.advance n).mem = s.mem := rfl
@[simp] theorem State.advance_regs (n : Nat) : (s.advance n).regs = s.regs := rfl
@[simp] theorem State.advance_pc (n : Nat) : (s.advance n).pc = s.pc + n := rfl
@[simp] theorem State.advance_status (n : Nat) : (s.advance n).status = s.status := rfl
@[simp] theorem State.advance_out (n : Nat) : (s.advance n).out = s.out := rfl
@[simp] theorem State.advance_byteAt (n : Nat) (y : Nat) : (s.advance n).byteAt y = s.byteAt y := rfl
@[simp] theorem State.advance_reg (n : Nat) (k : Fin 8) : (s.advance n).reg k = s.reg k := rfl
@[simp] theorem State.advance_sp (n : Nat) : (s.advance n).sp = s.sp := rfl

@[simp] theorem State.jump_mem (v : Byte) : (s.jump v).mem = s.mem := rfl
@[simp] theorem State.jump_regs (v : Byte) : (s.jump v).regs = s.regs := rfl
@[simp] theorem State.jump_pc (v : Byte) : (s.jump v).pc = v.toNat := rfl
@[simp] theorem State.jump_status (v : Byte) : (s.jump v).status = s.status := rfl
@[simp] theorem State.jump_out (v : Byte) : (s.jump v).out = s.out := rfl
@[simp] theorem State.jump_byteAt (v : Byte) (y : Nat) : (s.jump v).byteAt y = s.byteAt y := rfl
@[simp] theorem State.jump_reg (v : Byte) (k : Fin 8) : (s.jump v).reg k = s.reg k := rfl
@[simp] theorem State.jump_sp (v : Byte) : (s.jump v).sp = s.sp := rfl

@[simp] theorem State.halt_mem : (s.halt).mem = s.mem := rfl
@[simp] theorem State.halt_regs : (s.halt).regs = s.regs := rfl
@[simp] theorem State.halt_pc : (s.halt).pc = s.pc := rfl
@[simp] theorem State.halt_status : (s.halt).status = Status.halted := rfl
@[simp] theorem State.halt_out : (s.halt).out = s.out := rfl
@[simp] theorem State.halt_byteAt  (y : Nat) : (s.halt).byteAt y = s.byteAt y := rfl
@[simp] theorem State.halt_reg  (k : Fin 8) : (s.halt).reg k = s.reg k := rfl
@[simp] theorem State.halt_sp  : (s.halt).sp = s.sp := rfl

@[simp] theorem takeFault_mem (o : Option Byte) (r : Raise) : (takeFault o r s).mem = s.mem := rfl
@[simp] theorem takeFault_regs (o : Option Byte) (r : Raise) : (takeFault o r s).regs = s.regs := rfl
@[simp] theorem takeFault_pc (o : Option Byte) (r : Raise) : (takeFault o r s).pc = s.pc := rfl
@[simp] theorem takeFault_status (o : Option Byte) (r : Raise) : (takeFault o r s).status = Status.faulted ⟨r.cause, s.pc, o, r.info⟩ := rfl
@[simp] theorem takeFault_out (o : Option Byte) (r : Raise) : (takeFault o r s).out = s.out := rfl
@[simp] theorem takeFault_byteAt (o : Option Byte) (r : Raise) (y : Nat) : (takeFault o r s).byteAt y = s.byteAt y := rfl
@[simp] theorem takeFault_reg (o : Option Byte) (r : Raise) (k : Fin 8) : (takeFault o r s).reg k = s.reg k := rfl
@[simp] theorem takeFault_sp (o : Option Byte) (r : Raise) : (takeFault o r s).sp = s.sp := rfl

/-- SP is register 7 of the file, read by either name (R22). -/
theorem State.sp_eq_reg : s.sp = s.reg 7 := rfl

/-- A change of SP is a write of register 7 (R22). -/
theorem State.setSp_eq_setReg (v : Byte) : s.setSp v = s.setReg 7 v := rfl

theorem State.setReg_reg (j k : Fin 8) (v : Byte) : (s.setReg j v).reg k = if k = j then v else s.reg k := by
  simp only [State.reg, State.setReg, Fin.getElem_fin, Vector.getElem_set, Fin.ext_iff, eq_comm]

@[simp] theorem State.setReg_reg_self (j : Fin 8) (v : Byte) : (s.setReg j v).reg j = v := by
  simp [State.setReg_reg]

theorem State.setReg_reg_of_ne {j k : Fin 8} (h : k ≠ j) (v : Byte) : (s.setReg j v).reg k = s.reg k := by
  simp [State.setReg_reg, h]

theorem State.setSp_reg (k : Fin 8) (v : Byte) : (s.setSp v).reg k = if k = 7 then v else s.reg k :=
  State.setReg_reg s 7 k v

@[simp] theorem State.setSp_sp (v : Byte) : (s.setSp v).sp = v := by
  rw [State.sp_eq_reg, State.setSp_eq_setReg, State.setReg_reg_self]

/-- Two states with the same register values have the same file. -/
theorem State.regs_ext {s t : State} (h : ∀ j, s.reg j = t.reg j) : s.regs = t.regs := by
  refine Vector.ext fun i hi => ?_
  exact h ⟨i, hi⟩

end Sys2Proof.Machine
end

