-- ==== Sys2Proof/Laws/Memory.lean ====
section
/-! SUPPORT. The laws of memory: a read after a write, and that every memory operation keeps the canonical form. -/

namespace Sys2Proof.Machine.Memory

theorem read_erase (m : Memory) (a x : Nat) :
    (m.erase a).read x = if x = a then Memory.unlisted else m.read x := by
  induction m with
  | nil => simp [erase, read]
  | cons c m ih =>
    obtain ⟨b, w⟩ := c
    rw [erase] at ih ⊢
    by_cases hb : b = a
    · subst hb
      rw [List.filter_cons_of_neg (by simp), ih]
      by_cases hx : x = b <;> simp [read, hx]
    · rw [List.filter_cons_of_pos (by simpa using hb), read, ih, read]
      by_cases hx : x = b
      · subst hx; simp [hb]
      · simp [hx]

theorem not_mem_erase (m : Memory) (a : Nat) : ∀ c ∈ m.erase a, c.1 ≠ a := by
  simp [erase]

theorem read_insert (m : Memory) (a : Nat) (v : Byte) (h : ∀ c ∈ m, c.1 ≠ a) (x : Nat) :
    (m.insert (a, v)).read x = if x = a then v else m.read x := by
  induction m with
  | nil => simp [insert, read]
  | cons d m ih =>
    obtain ⟨b, w⟩ := d
    have hb : b ≠ a := h (b, w) (by simp)
    rw [insert]
    split
    · simp [read]
    · rw [read, ih fun c hc => h c (by simp [hc]), read]
      by_cases hx : x = b
      · subst hx; simp [hb]
      · simp [hx]

/-- Read after write (spec/20_memory.md R60). -/
theorem read_write (m : Memory) (a : Nat) (v : Byte) (x : Nat) :
    (m.write a v).read x = if x = a then v else m.read x := by
  rw [write]
  split
  · next h => rw [read_erase, h]
  · rw [read_insert _ _ _ (not_mem_erase m a), read_erase]
    by_cases hx : x = a <;> simp [hx]

theorem mem_insert (m : Memory) (c d : Host.Cell) : d ∈ m.insert c ↔ d = c ∨ d ∈ m := by
  induction m with
  | nil => simp [insert]
  | cons e m ih =>
    rw [insert]
    split
    · simp
    · simp only [List.mem_cons, ih]; tauto

theorem pairwise_insert (m : Memory) (c : Host.Cell) (hm : m.Pairwise (fun d e => d.1 < e.1))
    (hc : ∀ d ∈ m, d.1 ≠ c.1) : (m.insert c).Pairwise (fun d e => d.1 < e.1) := by
  induction m with
  | nil => simp [insert]
  | cons d m ih =>
    rw [List.pairwise_cons] at hm
    rw [insert]
    split
    · next hlt =>
      refine List.pairwise_cons.2 ⟨?_, List.pairwise_cons.2 hm⟩
      rintro e (_ | ⟨_, he⟩)
      · exact hlt
      · exact hlt.trans (hm.1 e he)
    · next hge =>
      refine List.pairwise_cons.2 ⟨?_, ih hm.2 fun e he => hc e (by simp [he])⟩
      intro e he
      rcases (mem_insert m c e).1 he with rfl | he
      · have := hc d (by simp); omega
      · exact hm.1 e he

theorem wf_nil : Memory.wf [] := ⟨List.Pairwise.nil, by simp⟩

/-- A write below 256 keeps the canonical form. -/
theorem wf_write {m : Memory} (h : m.wf) {a : Nat} (ha : a < 256) (v : Byte) : (m.write a v).wf := by
  have he : (m.erase a).wf := ⟨h.1.filter _, fun c hc => h.2 c (List.mem_filter.1 hc).1⟩
  rw [write]
  split
  · exact he
  · next hv =>
    refine ⟨pairwise_insert _ _ he.1 (not_mem_erase m a), fun c hc => ?_⟩
    rcases (mem_insert _ _ _).1 hc with rfl | hc
    · exact ⟨ha, hv⟩
    · exact he.2 c hc

/-- Placing bytes that end at 256 or below keeps the canonical form. -/
theorem wf_place (bytes : List Byte) {m : Memory} (h : m.wf) {base : Nat}
    (hb : base + bytes.length ≤ 256) : (m.place base bytes).wf := by
  induction bytes generalizing m base with
  | nil => exact h
  | cons v rest ih =>
    simp only [List.length_cons] at hb
    exact ih (wf_write h (by omega) v) (by omega)

theorem read_place_of_lt (bytes : List Byte) (m : Memory) {base x : Nat} (h : x < base) :
    (m.place base bytes).read x = m.read x := by
  induction bytes generalizing m base with
  | nil => rfl
  | cons v rest ih =>
    rw [place, ih _ (by omega), read_write, if_neg (by omega)]

/-- Placed bytes read back in order; every other address reads as before. -/
theorem read_place (bytes : List Byte) (m : Memory) (base x : Nat) :
    (m.place base bytes).read x =
      if h : base ≤ x ∧ x - base < bytes.length then bytes[x - base] else m.read x := by
  induction bytes generalizing m base with
  | nil => simp [place]
  | cons v rest ih =>
    rcases Nat.lt_trichotomy x base with hx | rfl | hx
    · rw [read_place_of_lt _ _ hx, dif_neg (by omega)]
    · rw [place, read_place_of_lt _ _ (by omega), read_write]; simp
    · rw [place, ih]
      have hs : x - base = (x - (base + 1)) + 1 := by omega
      simp only [hs, List.length_cons, List.getElem_cons_succ, read_write, if_neg (Nat.ne_of_gt hx)]
      by_cases h : x - (base + 1) < rest.length
      · rw [dif_pos ⟨by omega, h⟩, dif_pos ⟨by omega, by omega⟩]
      · rw [dif_neg (by omega), dif_neg (by omega)]

end Sys2Proof.Machine.Memory

namespace Sys2Proof.Machine

theorem State.setByte_byteAt (s : State) (x : Nat) (v : Byte) (y : Nat) :
    (s.setByte x v).byteAt y = if y = x then v else s.byteAt y :=
  Memory.read_write s.mem x v y

@[simp] theorem State.setByte_byteAt_self (s : State) (x : Nat) (v : Byte) : (s.setByte x v).byteAt x = v := by
  simp [State.setByte_byteAt]

end Sys2Proof.Machine
end

