-- ==== Sys2Proof/Laws/Ops.lean ====
section
/-! SUPPORT. One lemma per shared operation: everything it can do. -/

namespace Sys2Proof.Machine

theorem memRead_of_lt {x : Nat} (h : x < 256) (s : State) : memRead x s = .ok (s.byteAt x) := if_pos h

theorem memRead_of_le {x : Nat} (h : 256 ≤ x) (s : State) : memRead x s = .error ⟨.memoryRange, x⟩ :=
  if_neg (Nat.not_lt.2 h)

theorem memWrite_of_lt {x : Nat} (h : x < 256) (v : Nat) (s : State) : memWrite x v s = .ok (s.setByte x (mask8 v)) :=
  if_pos h

theorem memWrite_of_le {x : Nat} (h : 256 ≤ x) (v : Nat) (s : State) :
    memWrite x v s = .error ⟨.memoryRange, x⟩ :=
  if_neg (Nat.not_lt.2 h)

/-- A memory write that succeeds is a write in range, and keeps the canonical form. -/
theorem memWrite_wf {x v : Nat} {s t : State} (h : memWrite x v s = .ok t) (hs : s.mem.wf) : t.mem.wf := by
  rw [memWrite] at h
  split at h
  · next hx => cases h; exact Memory.wf_write hs hx _
  · cases h

/-- Masking the value of a byte changes nothing (R52). -/
@[simp] theorem mask8_toNat (b : Byte) : mask8 b.toNat = b := by simp [mask8]

/-- `push_value` always succeeds (spec/20_memory.md R53). -/
theorem pushValue_eq (v : Nat) (s : State) :
    pushValue v s = .ok ((s.setSp (s.sp - 1#8)).setByte (s.sp - 1#8).toNat (mask8 v)) := by
  rw [pushValue, memWrite_of_lt (BitVec.isLt _), State.setSp_sp]

/-- `pop_value` always succeeds (R53). -/
theorem popValue_eq (s : State) : popValue s = .ok (s.byteAt s.sp.toNat, s.setSp (s.sp + 1#8)) := by
  rw [popValue, memRead_of_lt (BitVec.isLt _)]; rfl

theorem pushValue_wf {v : Nat} {s t : State} (h : pushValue v s = .ok t) (hs : s.mem.wf) : t.mem.wf :=
  memWrite_wf h hs

theorem readReg_of_eq {i : Byte} {j : Fin 8} (h : i.toNat = j.val) (s : State) : readReg i s = .ok (s.reg j) := by
  simp [readReg, h]

theorem readReg_of_le {i : Byte} (h : 8 ≤ i.toNat) (s : State) : readReg i s = .error ⟨.registerRange, i.toNat⟩ :=
  dif_neg (Nat.not_lt.2 h)

theorem writeReg_of_eq {i : Byte} {j : Fin 8} (h : i.toNat = j.val) (v : Nat) (s : State) :
    writeReg i v s = .ok (s.setReg j (mask8 v)) := by
  simp [writeReg, h]

theorem writeReg_of_le {i : Byte} (h : 8 ≤ i.toNat) (v : Nat) (s : State) :
    writeReg i v s = .error ⟨.registerRange, i.toNat⟩ :=
  dif_neg (Nat.not_lt.2 h)

/-- An operand byte names a register or is out of range: the case split of every register operand (R26). -/
theorem operand_cases (i : Byte) : (∃ j : Fin 8, i.toNat = j.val) ∨ 8 ≤ i.toNat :=
  (Nat.lt_or_ge i.toNat 8).imp (fun h => ⟨⟨i.toNat, h⟩, rfl⟩) id

/-- The ALU on two named registers (R141). -/
theorem alu_ok {op : AluTag} {f : Byte → Byte → Nat} (hf : aluFunction op = .ok f) {a b : Byte} {j k : Fin 8}
    (ha : a.toNat = j.val) (hb : b.toNat = k.val) (s : State) :
    alu op a b s = .ok (s.setReg j (mask8 (f (s.reg j) (s.reg k)))) := by
  simp [alu, hf, readReg_of_eq ha, readReg_of_eq hb, writeReg_of_eq ha, bind, Except.bind]

/-- The first index out of range is the one reported (spec/60_exceptions.md R207). -/
theorem alu_a_out {op : AluTag} {f : Byte → Byte → Nat} (hf : aluFunction op = .ok f) {a : Byte}
    (ha : 8 ≤ a.toNat) (b : Byte) (s : State) : alu op a b s = .error ⟨.registerRange, a.toNat⟩ := by
  simp [alu, hf, readReg_of_le ha, bind, Except.bind]

theorem alu_b_out {op : AluTag} {f : Byte → Byte → Nat} (hf : aluFunction op = .ok f) {a b : Byte} {j : Fin 8}
    (ha : a.toNat = j.val) (hb : 8 ≤ b.toNat) (s : State) : alu op a b s = .error ⟨.registerRange, b.toNat⟩ := by
  simp [alu, hf, readReg_of_eq ha, readReg_of_le hb, bind, Except.bind]

@[simp] theorem finish_ok (opcode : Byte) (s t : State) : finish opcode s (.ok t) = .next t := rfl

@[simp] theorem finish_error (opcode : Byte) (s : State) (r : Raise) :
    finish opcode s (.error r) = .next (takeFault (some opcode) r s) := rfl

/-- `finish` always answers a next state: the handler's, or the state at the start with the fault taken. -/
theorem finish_cases (opcode : Byte) (s : State) (e : Except Raise State) :
    (∃ t, e = .ok t ∧ finish opcode s e = .next t) ∨
      ∃ r, e = .error r ∧ finish opcode s e = .next (takeFault (some opcode) r s) := by
  cases e with
  | ok t => exact .inl ⟨t, rfl, rfl⟩
  | error r => exact .inr ⟨r, rfl, rfl⟩

/-- A fetch at `pc <= 253` latches the three bytes (R111). -/
theorem fetch_of_le {s : State} (h : s.pc ≤ 253) :
    fetch s = .ok ⟨s.byteAt s.pc, s.byteAt (s.pc + 1), s.byteAt (s.pc + 2)⟩ := by
  rw [fetch, memRead_of_lt (by omega)]
  simp only []
  rw [memRead_of_lt (by omega)]
  simp only []
  rw [memRead_of_lt (by omega)]

/-- A fetch at `pc >= 254` faults on the first address of 256 or more (R202). -/
theorem fetch_of_ge {s : State} (h : 254 ≤ s.pc) :
    fetch s = .error ⟨if s.pc ≤ 255 then some (s.byteAt s.pc) else none, .memoryRange, max 256 s.pc⟩ := by
  rw [fetch]
  rcases Nat.lt_or_ge s.pc 256 with hp | hp
  · rw [memRead_of_lt hp]
    simp only []
    rcases Nat.lt_or_ge (s.pc + 1) 256 with hp1 | hp1
    · rw [memRead_of_lt hp1]
      simp only []
      rw [memRead_of_le (by omega)]
      simp only [if_pos (show s.pc ≤ 255 by omega)]
      congr 3; omega
    · rw [memRead_of_le hp1]
      simp only [if_pos (show s.pc ≤ 255 by omega)]
      congr 3; omega
  · rw [memRead_of_le hp]
    simp only [if_neg (show ¬ s.pc ≤ 255 by omega)]
    congr 3; omega

/-- Every load that starts a run leaves memory in canonical form. -/
theorem load_wf {program : List Byte} {s : State} (h : load program = .next s) : s.mem.wf := by
  rw [load] at h
  split at h
  · next hp => cases h; exact Memory.wf_place _ Memory.wf_nil (by simpa using hp)
  · cases h

/-- A running step whose fetch faults takes that fault (R111). -/
theorem step_of_fetch_error {s : State} {f : FetchFault} (h : s.status = .running) (hf : fetch s = .error f) :
    step s = .next (takeFault f.opcode f.raised s) := by
  simp only [step, h, hf]

/-- A running step whose opcode is no row of the table takes UnknownInstruction (R112). -/
theorem step_of_decode_error {s : State} {l : Latches} {e : DecodeReject} (h : s.status = .running)
    (hf : fetch s = .ok l) (hd : decode l.opcode l.a l.b = .error e) : step s = raiseUnknown l.opcode s := by
  simp only [step, h, hf, hd]

/-- A running step whose bytes decode is the execute phase of their instruction (R113). -/
theorem step_of_decode_ok {s : State} {l : Latches} {i : Instr} (h : s.status = .running)
    (hf : fetch s = .ok l) (hd : decode l.opcode l.a l.b = .ok i) : step s = exec i s := by
  simp only [step, h, hf, hd]

end Sys2Proof.Machine
end

