-- ==== Sys2Proof/Laws/PerInstr.lean ====
section
/-! SUPPORT. Statements for all instructions, one lemma per constructor. -/

namespace Sys2Proof.Laws.Layout

/-- An instruction occupies as many bytes as its format says, from one to three, and the first is its opcode byte
(spec/30_encoding.md R80, R81; for LD, ST and PRA the format is PRESUMED, log 3). -/
def Statement (i : Instr) : Prop :=
  (encode i).length = i.format.length ∧ (encode i).length ∈ [1, 2, 3] ∧ (encode i).head? = some i.opcode

theorem nop : Statement .nop := by simp [Statement, encode, Instr.operands, Instr.format, Format.length]

theorem hlt : Statement .hlt := by simp [Statement, encode, Instr.operands, Instr.format, Format.length]

theorem ldi (a imm : Byte) : Statement (.ldi a imm) := by
  simp [Statement, encode, Instr.operands, Instr.format, Format.length]

theorem prn (a : Byte) : Statement (.prn a) := by
  simp [Statement, encode, Instr.operands, Instr.format, Format.length]

theorem mul (a b : Byte) : Statement (.mul a b) := by
  simp [Statement, encode, Instr.operands, Instr.format, Format.length]

theorem add (a b : Byte) : Statement (.add a b) := by
  simp [Statement, encode, Instr.operands, Instr.format, Format.length]

theorem push (a : Byte) : Statement (.push a) := by
  simp [Statement, encode, Instr.operands, Instr.format, Format.length]

theorem pop (a : Byte) : Statement (.pop a) := by
  simp [Statement, encode, Instr.operands, Instr.format, Format.length]

theorem call (a : Byte) : Statement (.call a) := by
  simp [Statement, encode, Instr.operands, Instr.format, Format.length]

theorem ret : Statement .ret := by simp [Statement, encode, Instr.operands, Instr.format, Format.length]

theorem ld : Statement .ld := by simp [Statement, encode, Instr.operands, Instr.format, Format.length]

theorem st : Statement .st := by simp [Statement, encode, Instr.operands, Instr.format, Format.length]

theorem pra : Statement .pra := by simp [Statement, encode, Instr.operands, Instr.format, Format.length]

end Sys2Proof.Laws.Layout
end

