-- ==== Sys2Proof/Laws/Run.lean ====
section
/-! SUPPORT. Runs: the host's `Core.run` over `core` reaches what `Reaches` says, and an induction over runs packaged
once. -/

namespace Sys2Proof.Machine

/-- What every step of a machine keeps, its runs keep. -/
theorem run_keeps (M : Host.Core) {p : M.State → Prop} (keep : ∀ s t, p s → M.step s = .next t → p t) {k : Nat}
    {s t : M.State} (hs : p s) (h : M.run k s = .next t) : p t := by
  induction k generalizing s with
  | zero => cases h; exact hs
  | succ k ih =>
    rw [Host.Core.run] at h
    split at h
    · next u hu => exact ih (keep s u hs hu) h
    · cases h
    · cases h

/-- A run of the host's machine reaches the state it answers. -/
theorem reaches_of_run {k : Nat} {s t : State} (h : Host.Core.run core k s = .next t) : Reaches s t :=
  run_keeps core (p := Reaches s) (fun _ _ => .next) .refl h

/-- What holds of a state and is kept by every step holds of every state reached from it. -/
theorem Reaches.induct {p : State → Prop} (keep : ∀ s t, p s → step s = .next t → p t) {s t : State}
    (h : Reaches s t) (hs : p s) : p t := by
  induction h with
  | refl => exact hs
  | next _ hu ih => exact keep _ _ ih hu

end Sys2Proof.Machine
end

