-- ==== Sys2Proof/Tests/Slice0.lean ====
section
/-! SUPPORT. Tests: expected results are those of spec/95_test_vectors.md (the vector is named in each comment) and of
the encodings of spec/30_encoding.md R81, R86; after them a witness for the hypotheses of each statement of
Certificates/Slice0/Obligations.lean, at the boundary of each clause's range. -/

namespace Sys2Proof.Tests

open Sys2Proof Sys2Proof.Machine

/-- The reset state but for `pc`, the listed registers and the listed cells (the vectors' convention). -/
def testState (pc : Nat) (regs : List (Fin 8 × Byte)) (cells : List (Nat × Byte)) : State :=
  cells.foldl (fun s c => s.setByte c.1 c.2)
    (regs.foldl (fun s r => s.setReg r.1 r.2) { State.reset with pc := pc })

/-- The step of `s` answers a next state of which `p` holds. -/
def stepMeets (s : State) (p : State → Bool) : Bool :=
  match step s with
  | .next t => p t
  | .fault _ => false
  | .refused _ => false

/-- The status of the state the step of `s` answers. -/
def stepStatus (s : State) : Option Status :=
  match step s with
  | .next t => some t.status
  | .fault _ => none
  | .refused _ => none

/-! ### Well-formed instructions: an ill-formed term for each check -/

theorem test_wellFormed_ldi : (Instr.ldi 8#8 0#8).wellFormed = false ∧ (Instr.ldi 7#8 255#8).wellFormed = true := by decide

theorem test_wellFormed_prn : (Instr.prn 8#8).wellFormed = false := by decide

theorem test_wellFormed_mul_a : (Instr.mul 8#8 0#8).wellFormed = false := by decide

theorem test_wellFormed_mul_b : (Instr.mul 0#8 8#8).wellFormed = false := by decide

theorem test_wellFormed_add_a : (Instr.add 255#8 0#8).wellFormed = false := by decide

theorem test_wellFormed_add_b : (Instr.add 0#8 255#8).wellFormed = false := by decide

theorem test_wellFormed_push : (Instr.push 8#8).wellFormed = false := by decide

theorem test_wellFormed_pop : (Instr.pop 8#8).wellFormed = false := by decide

theorem test_wellFormed_call : (Instr.call 8#8).wellFormed = false := by decide

/-! ### Decoding: each word written out from R81 and R86, the last operand byte first, the opcode byte last -/

theorem test_decode_nop : decodeTableWord 8 0b00000000 = some .nop := by decide

theorem test_decode_hlt : decodeTableWord 8 0b00000001 = some .hlt := by decide

theorem test_decode_ldi : decodeTableWord 24 0b00001000_00000011_10000010 = some (.ldi 3#8 8#8) := by decide

theorem test_decode_prn : decodeTableWord 16 0b00000101_01000111 = some (.prn 5#8) := by decide

theorem test_decode_mul : decodeTableWord 24 0b00000010_00000100_10100010 = some (.mul 4#8 2#8) := by decide

theorem test_decode_add : decodeTableWord 24 0b00000001_00000110_10100000 = some (.add 6#8 1#8) := by decide

theorem test_decode_push : decodeTableWord 16 0b00000111_01000101 = some (.push 7#8) := by decide

theorem test_decode_pop : decodeTableWord 16 0b00001000_01000110 = some (.pop 8#8) := by decide

theorem test_decode_call : decodeTableWord 16 0b00000001_01010000 = some (.call 1#8) := by decide

theorem test_decode_ret : decodeTableWord 8 0b00010001 = some .ret := by decide

/-- The values are general knowledge (G3, log 3). -/
theorem test_decode_reserved : decodeTableWord 8 0b10000011 = some .ld ∧ decodeTableWord 8 0b10000100 = some .st ∧
    decodeTableWord 8 0b01001000 = some .pra := by decide

/-- R90, V-FET-6: a byte that fits the bit pattern of R88 is no instruction. -/
theorem test_decode_unknown : decodeTableWord 8 0b10100001 = none := by decide

/-- R82: fewer than three bytes are no fetch. -/
theorem test_decode_short : decodeBytes [0x01#8, 0x00#8] = .error (.tooFewBytes 2) := by decide

/-- R92: `LDI R0,8` is `82 00 08`. -/
theorem test_encode_ldi : encode (.ldi 0#8 8#8) = [0x82#8, 0x00#8, 0x08#8] := by decide

/-! ### One step each -/

/-- V-FET-1. -/
theorem test_fetch_at_254 :
    stepStatus (testState 254 [] [(254, 0x01#8)]) =
      some (.faulted ⟨.memoryRange, 254, (some 0x01#8), 256⟩) := by decide

/-- V-FET-2. -/
theorem test_fetch_at_255 :
    stepStatus (testState 255 [] [(255, 0x11#8)]) =
      some (.faulted ⟨.memoryRange, 255, (some 0x11#8), 256⟩) := by decide

/-- V-FET-3. -/
theorem test_fetch_at_256 :
    stepStatus (testState 256 [] []) =
      some (.faulted ⟨.memoryRange, 256, none, 256⟩) := by decide

/-- V-FET-4. -/
theorem test_fetch_before_decode :
    stepStatus (testState 254 [] [(254, 0xFF#8)]) =
      some (.faulted ⟨.memoryRange, 254, (some 0xFF#8), 256⟩) := by decide

/-- V-FET-5. -/
theorem test_nop :
    stepStatus (testState 0 [] []) =
      some (.faulted ⟨.unknownInstruction, 0, (some 0x00#8), 0⟩) := by decide

/-- V-FET-6 and E3. -/
theorem test_unknown_byte :
    stepStatus (testState 0 [] [(0, 0xA1#8)]) =
      some (.faulted ⟨.unknownInstruction, 0, (some 0xA1#8), 0xA1⟩) ∧
    stepStatus (testState 0 [] [(0, 0xFF#8)]) =
      some (.faulted ⟨.unknownInstruction, 0, (some 0xFF#8), 255⟩) := by decide

/-- V-FET-7. -/
theorem test_reserved :
    stepStatus (testState 0 [] [(0, 0x83#8)]) =
      some (.faulted ⟨.unknownInstruction, 0, (some 0x83#8), 0x83⟩) ∧
    stepStatus (testState 0 [] [(0, 0x84#8)]) =
      some (.faulted ⟨.unknownInstruction, 0, (some 0x84#8), 0x84⟩) ∧
    stepStatus (testState 0 [] [(0, 0x48#8)]) =
      some (.faulted ⟨.unknownInstruction, 0, (some 0x48#8), 0x48⟩) := by decide

/-- V-HLT-2: the status alone (R245). -/
theorem test_hlt :
    stepMeets (testState 253 [] [(253, 0x01#8)])
      (fun t => t.status == .halted) = true := by decide

/-- V-LDI-4: `pc` does not wrap. -/
theorem test_ldi_at_the_top :
    stepMeets (testState 253 [] [(253, 0x82#8), (254, 0x01#8), (255, 0x2A#8)])
      (fun t => t.reg 1 == 0x2A#8 && t.pc == 256) = true := by decide

/-- V-LDI-6: the index is not masked. -/
theorem test_ldi_range :
    stepStatus (testState 0 [] [(0, 0x82#8), (1, 0xFF#8), (2, 0x05#8)]) =
      some (.faulted ⟨.registerRange, 0, (some 0x82#8), 255⟩) := by decide

/-- V-PRN-4: R7 is SP. -/
theorem test_prn :
    stepMeets (testState 0 [] [(0, 0x47#8), (1, 0x07#8)])
      (fun t => t.out == [0xF4#8] && t.pc == 2) = true := by decide

/-- V-PRN-5. -/
theorem test_prn_range :
    stepStatus (testState 0 [] [(0, 0x47#8), (1, 0x09#8)]) =
      some (.faulted ⟨.registerRange, 0, (some 0x47#8), 9⟩) := by decide

/-- V-ADD-2. -/
theorem test_add :
    stepMeets (testState 0 [(0, 0xC8#8), (1, 0x64#8)] [(0, 0xA0#8), (1, 0x00#8), (2, 0x01#8)])
      (fun t => t.reg 0 == 0x2C#8 && t.reg 1 == 0x64#8 && t.pc == 3) = true := by decide

/-- V-ADD-7: `a` is checked before `b`. -/
theorem test_add_range :
    stepStatus (testState 0 [] [(0, 0xA0#8), (1, 0x09#8), (2, 0x0A#8)]) =
      some (.faulted ⟨.registerRange, 0, (some 0xA0#8), 9⟩) := by decide

/-- V-MUL-3. -/
theorem test_mul :
    stepMeets (testState 0 [(0, 0xFF#8), (1, 0xFF#8)] [(0, 0xA2#8), (1, 0x00#8), (2, 0x01#8)])
      (fun t => t.reg 0 == 0x01#8 && t.pc == 3) = true := by decide

/-- V-MUL-5: both sources read before the write. -/
theorem test_mul_same :
    stepMeets (testState 0 [(4, 0x0F#8)] [(0, 0xA2#8), (1, 0x04#8), (2, 0x04#8)])
      (fun t => t.reg 4 == 0xE1#8) = true := by decide

/-- V-PUSH-4: the latched operand is used. -/
theorem test_push_own_operand :
    stepMeets (testState 6 [(7, 0x08#8), (0, 0x99#8)] [(6, 0x45#8), (7, 0x00#8)])
      (fun t => t.byteAt 7 == 0x99#8 && t.sp == 0x07#8 && t.pc == 8) = true := by decide

/-- V-PUSH-3: the old SP. -/
theorem test_push_sp :
    stepMeets (testState 0 [] [(0, 0x45#8), (1, 0x07#8)])
      (fun t => t.byteAt 0xF3 == 0xF4#8 && t.sp == 0xF3#8) = true := by decide

/-- V-POP-2. -/
theorem test_pop_wrap :
    stepMeets (testState 0 [(7, 0xFF#8)] [(255, 0x3C#8), (0, 0x46#8), (1, 0x02#8)])
      (fun t => t.reg 2 == 0x3C#8 && t.sp == 0x00#8 && t.pc == 2) = true := by decide

/-- V-POP-3. -/
theorem test_pop_sp :
    stepMeets (testState 0 [(7, 0xF3#8)] [(243, 0x20#8), (0, 0x46#8), (1, 0x07#8)])
      (fun t => t.sp == 0x20#8) = true := by decide

/-- V-CALL-3. -/
theorem test_call :
    stepMeets (testState 253 [] [(253, 0x50#8), (254, 0x00#8)])
      (fun t => t.byteAt 0xF3 == 0xFF#8 && t.sp == 0xF3#8 && t.pc == 0) = true := by decide

/-- V-CALL-2: the SP from after the push. -/
theorem test_call_sp :
    stepMeets (testState 5 [] [(5, 0x50#8), (6, 0x07#8)])
      (fun t => t.byteAt 0xF3 == 0x07#8 && t.pc == 0xF3) = true := by decide

/-- V-RET-3. -/
theorem test_ret :
    stepMeets (testState 0 [(7, 0xFF#8)] [(255, 0x20#8), (0, 0x11#8)])
      (fun t => t.pc == 0x20 && t.sp == 0x00#8) = true := by decide

/-- R144: another tag. -/
theorem test_unsupported_alu_tag :
    alu (.other 5) 0#8 0#8 State.reset = .error ⟨.unsupportedAluOp, 5⟩ := by decide

/-- R200. -/
theorem test_fault_codes :
    [Cause.unknownInstruction, .unsupportedAluOp, .memoryRange, .registerRange].map Cause.code = [1, 2, 3, 4] := by decide

/-- Canonical form (log 14). -/
theorem test_write_of_zero_is_not_listed :
    ((Memory.write [] 5 1#8).write 3 2#8).write 5 0#8 = [(3, 2#8)] := by decide

/-- Canonical form at reset. -/
theorem test_reset_memory :
    State.reset.mem.wf := by decide

/-- R214, R216: the host is told once `status` leaves Running. -/
theorem test_result :
    State.reset.result = none ∧ State.reset.halt.result = some .halted := by decide

/-! ### Witnesses of the hypotheses -/

theorem witness_LoadPlacesTheProgramAtZero :
    (List.replicate 256 1#8 : List Byte).length ≤ 256 ∧ 256 < (List.replicate 257 1#8 : List Byte).length ∧
      255 < (List.replicate 256 1#8 : List Byte).length ∧ (List.replicate 255 1#8 : List Byte).length ≤ 255 := 
    by simp only [List.length_replicate]; omega

/-- The empty program, and one shorter than a fetch. -/
theorem witness_FirstFetchReadsTheProgramAtZero :
    ∃ s t, load [] = .next s ∧ load [0x82#8, 0x07#8] = .next t ∧ s ≠ t := ⟨_, _, rfl, rfl, by decide⟩

theorem witness_StepRunsTheDecodedInstruction :
    Fetches (testState 253 [] [(253, 0x82#8), (254, 0x07#8), (255, 0xFF#8)]) 0x82#8 0x07#8 0xFF#8 ∧
      decode 0x82#8 0x07#8 0xFF#8 = .ok (.ldi 7#8 255#8) := ⟨⟨rfl, by decide, by decide, by decide, by decide⟩, by decide⟩

theorem witness_StepAnswersExactlyWhileRunning :
    State.reset.status = .running ∧ State.reset.halt.status = .halted ∧
      (takeFault none ⟨.memoryRange, 256⟩ State.reset).status = .faulted ⟨.memoryRange, 0, none, 256⟩ := ⟨rfl, rfl, rfl⟩

/-- Also the witness of a step for every statement about a step that answers a next state. -/
theorem witness_OnlyHltHalts :
    ∃ t, step (testState 253 [] [(253, 0x01#8)]) = .next t := ⟨_, rfl⟩

theorem witness_PcDeltaEqualsLength :
    (Instr.add 7#8 7#8).dispatched = true ∧ (Instr.add 7#8 7#8).wellFormed = true ∧ Instr.add 7#8 7#8 ≠ .hlt ∧
      Instr.add 7#8 7#8 ≠ .ret ∧ (∀ a, Instr.add 7#8 7#8 ≠ .call a) ∧ (0x07#8).toNat = (7 : Fin 8).val ∧
      (testState 253 [] []).pc ≤ 253 := ⟨by decide, by decide, by decide, by decide, by simp, by decide, by decide⟩

theorem witness_FetchOutsideMemoryFaults :
    (testState 254 [] []).status = .running ∧ (testState 254 [] []).pc = 254 ∧ (testState 255 [] []).pc = 255 ∧
      256 ≤ (testState 256 [] []).pc := ⟨rfl, rfl, rfl, by decide⟩

theorem witness_UndispatchedOpcodesFault :
    Fetches (testState 253 [] [(253, 0xFF#8)]) 0xFF#8 0x00#8 0x00#8 ∧ 0xFF#8 ∉ dispatchTable ∧
      0x82#8 ∈ dispatchTable ∧ Fetches (testState 253 [] [(253, 0x82#8), (254, 0x08#8)]) 0x82#8 0x08#8 0x00#8 ∧
      ∃ t, step (testState 253 [] [(253, 0x82#8), (254, 0x08#8)]) = .next t ∧
        t.status = .faulted ⟨.registerRange, 253, some 0x82#8, 8⟩ := 
    ⟨⟨rfl, by decide, by decide, by decide, by decide⟩, by decide, by decide, ⟨rfl, by decide, by decide, by decide, by decide⟩, _, rfl, by decide⟩

theorem witness_StepFaultsInThePriorityOrder :
    (testState 253 [] []).status = .running ∧
      expectedFault (testState 253 [] [(253, 0x01#8)]) = none ∧
      expectedFault (testState 253 [] [(253, 0xA0#8), (255, 0x08#8)]) = some ⟨.registerRange, 253, some 0xA0#8, 8⟩ := ⟨rfl, by decide, by decide⟩

/-- Also the witness of UnsupportedAluOpIsUnreachable. -/
theorem witness_FaultDiscardsTheStep :
    ∃ t u, step (testState 256 [] []) = .next t ∧ t.status = .faulted ⟨.memoryRange, 256, none, 256⟩ ∧
      step (testState 255 [] [(255, 0x11#8)]) = .next u ∧ u.status = .faulted ⟨.memoryRange, 255, some 0x11#8, 256⟩ := 
    ⟨_, _, rfl, by decide, rfl, by decide⟩

theorem witness_WellFormedDispatchedInstructionsNeverFault :
    (Instr.call 7#8).dispatched = true ∧ (Instr.call 7#8).wellFormed = true ∧ (testState 300 [] []).status = .running := ⟨by decide, by decide, rfl⟩

/-- The operand clauses of LDI, PRN, ADD, MUL, PUSH, POP, CALL, of StackPointerIsRegisterSeven and of
RegisterAccessChecksTheIndex. -/
theorem witness_operands :
    (0x07#8).toNat = (7 : Fin 8).val ∧ (0x00#8).toNat = (0 : Fin 8).val ∧ 8 ≤ (0x08#8).toNat ∧ 8 ≤ (0xFF#8).toNat ∧
      (0x07#8).toNat < 8 := by decide

/-- The clause every instruction statement and UnusedOperandBytesAreIgnored have. -/
theorem witness_HighFetchFaults :
    (testState 254 [] []).status = .running ∧ 254 ≤ (testState 254 [] []).pc := ⟨rfl, by decide⟩

theorem witness_LdiLoadsTheImmediate :
    Fetches (testState 253 [] [(253, 0x82#8), (254, 0x07#8), (255, 0xFF#8)]) 0x82#8 0x07#8 0xFF#8 := ⟨rfl, by decide, by decide, by decide, by decide⟩

theorem witness_PrnAppendsTheRegister :
    Fetches (testState 253 [] [(253, 0x47#8), (254, 0x07#8), (255, 0xFF#8)]) 0x47#8 0x07#8 0xFF#8 := ⟨rfl, by decide, by decide, by decide, by decide⟩

theorem witness_AddWritesTheSumModulo256 :
    Fetches (testState 253 [] [(253, 0xA0#8), (254, 0x07#8), (255, 0xFF#8)]) 0xA0#8 0x07#8 0xFF#8 := ⟨rfl, by decide, by decide, by decide, by decide⟩

theorem witness_MulWritesTheProductModulo256 :
    Fetches (testState 253 [] [(253, 0xA2#8), (254, 0x07#8), (255, 0xFF#8)]) 0xA2#8 0x07#8 0xFF#8 := ⟨rfl, by decide, by decide, by decide, by decide⟩

theorem witness_PushStoresBelowTheStackPointer :
    Fetches (testState 253 [] [(253, 0x45#8), (254, 0x07#8), (255, 0xFF#8)]) 0x45#8 0x07#8 0xFF#8 := ⟨rfl, by decide, by decide, by decide, by decide⟩

theorem witness_PopLoadsTheTopOfStack :
    Fetches (testState 253 [] [(253, 0x46#8), (254, 0x07#8), (255, 0xFF#8)]) 0x46#8 0x07#8 0xFF#8 := ⟨rfl, by decide, by decide, by decide, by decide⟩

theorem witness_CallPushesTheReturnAddressAndJumps :
    Fetches (testState 253 [] [(253, 0x50#8), (254, 0x07#8), (255, 0xFF#8)]) 0x50#8 0x07#8 0xFF#8 ∧
      (0x07#8).toNat = (7 : Fin 8).val ∧ (testState 253 [] []).pc ≤ 253 := ⟨⟨rfl, by decide, by decide, by decide, by decide⟩, by decide, by decide⟩

theorem witness_RetJumpsToThePoppedByte :
    Fetches (testState 253 [] [(253, 0x11#8), (254, 0xFF#8), (255, 0xFF#8)]) 0x11#8 0xFF#8 0xFF#8 := ⟨rfl, by decide, by decide, by decide, by decide⟩

theorem witness_HltHaltsTheRun :
    Fetches (testState 253 [] [(253, 0x01#8), (254, 0xFF#8), (255, 0xFF#8)]) 0x01#8 0xFF#8 0xFF#8 := ⟨rfl, by decide, by decide, by decide, by decide⟩

theorem witness_NopTakesUnknownInstruction :
    Fetches (testState 253 [] [(254, 0xFF#8)]) 0x00#8 0xFF#8 0x00#8 := ⟨rfl, by decide, by decide, by decide, by decide⟩

theorem witness_ReservedConstantsTakeUnknownInstruction :
    Fetches (testState 253 [] [(253, 0x83#8)]) 0x83#8 0x00#8 0x00#8 ∧
      Fetches (testState 253 [] [(253, 0x84#8)]) 0x84#8 0x00#8 0x00#8 ∧
      Fetches (testState 253 [] [(253, 0x48#8)]) 0x48#8 0x00#8 0x00#8 := ⟨⟨rfl, by decide, by decide, by decide, by decide⟩, ⟨rfl, by decide, by decide, by decide, by decide⟩, ⟨rfl, by decide, by decide, by decide, by decide⟩⟩

theorem witness_AluIsCommutativeAndAssociative :
    (0x05#8).toNat = (5 : Fin 8).val ∧ (0x06#8).toNat = (6 : Fin 8).val ∧ (0x07#8).toNat = (7 : Fin 8).val ∧
      (5 : Fin 8) ≠ 6 ∧ (6 : Fin 8) ≠ 7 ∧ (5 : Fin 8) ≠ 7 ∧ (AluTag.mul = .add ∨ AluTag.mul = .mul) := by decide

theorem witness_PushThenPopRoundTrip :
    (0x00#8).toNat = (0 : Fin 8).val ∧ (0x07#8).toNat = (7 : Fin 8).val ∧ (0 : Fin 8) ≠ 7 := by decide

theorem witness_CallThenReturnRoundTrip :
    (0x07#8).toNat = (7 : Fin 8).val ∧ (testState 253 [] []).pc ≤ 253 ∧
      ∃ t u, exec (.call 7#8) (testState 253 [] []) = .next t ∧ u.sp = t.sp ∧ u.byteAt t.sp.toNat = t.byteAt t.sp.toNat ∧ u ≠ t := 
    ⟨by decide, by decide, _, State.halt _, rfl, rfl, rfl, by decide⟩

/-- Its `pc` ends at 256, the top of the invariant's range. -/
theorem witness_EveryStepKeepsTheInvariant :
    StateInv (testState 253 [] [(253, 0x82#8)]) ∧ ∃ t, step (testState 253 [] [(253, 0x82#8)]) = .next t := 
    ⟨⟨by decide, by decide, fun r h => by cases h⟩, _, rfl⟩

theorem witness_RunsOfLoadedProgramsKeepTheInvariant :
    ∃ s t u, load [0x47#8, 0x07#8, 0x01#8] = .next s ∧ Reaches s t ∧ Reaches t u ∧ t.out ≠ u.out := 
    ⟨_, _, _, rfl, .refl, .next .refl rfl, by decide⟩

theorem witness_OutputGrowsOnlyByPrn :
    ∃ t u, step (testState 253 [] [(253, 0x47#8), (254, 0x07#8)]) = .next t ∧
      (testState 253 [] [(253, 0x47#8), (254, 0x07#8)]).byteAt 254 = 0x07#8 ∧
      step (testState 253 [] [(253, 0x47#8), (254, 0x08#8)]) = .next u ∧
      8 ≤ ((testState 253 [] [(253, 0x47#8), (254, 0x08#8)]).byteAt 254).toNat := ⟨_, _, rfl, by decide, rfl, by decide⟩

theorem witness_OnlyPushAndCallWriteMemory :
    ∃ t u, step (testState 254 [] [(254, 0x45#8)]) = .next t ∧ 254 ≤ (testState 254 [] [(254, 0x45#8)]).pc ∧
      step (testState 253 [] [(253, 0x46#8)]) = .next u ∧ (testState 253 [] [(253, 0x46#8)]).byteAt 253 ∉ [0x45#8, 0x50#8] := 
    ⟨_, _, rfl, by decide, rfl, by decide⟩

theorem witness_OnlyNamedRegistersChange :
    ∃ t u, step (testState 253 [] [(253, 0x82#8), (254, 0x06#8), (255, 0x01#8)]) = .next t ∧
      t.reg 6 ≠ (testState 253 [] [(253, 0x82#8), (254, 0x06#8), (255, 0x01#8)]).reg 6 ∧
      step (testState 253 [] [(253, 0x11#8)]) = .next u ∧ u.reg 7 ≠ (testState 253 [] [(253, 0x11#8)]).reg 7 := 
    ⟨_, _, rfl, by decide, rfl, by decide⟩

/-- Two running states with an empty log that differ at address 100 alone, in front of a RET. -/
theorem witness_StepDependsOnlyOnTheBytesItReads :
    (testState 0 [] [(0, 0x11#8), (100, 1#8)]).pc = (testState 0 [] [(0, 0x11#8), (100, 2#8)]).pc ∧
      (∀ j : Fin 8, (testState 0 [] [(0, 0x11#8), (100, 1#8)]).reg j = (testState 0 [] [(0, 0x11#8), (100, 2#8)]).reg j) ∧
      (∀ x ∈ [0, 1, 2, 0xF4], (testState 0 [] [(0, 0x11#8), (100, 1#8)]).byteAt x =
        (testState 0 [] [(0, 0x11#8), (100, 2#8)]).byteAt x) ∧
      (testState 0 [] [(0, 0x11#8), (100, 1#8)]).byteAt 100 ≠ (testState 0 [] [(0, 0x11#8), (100, 2#8)]).byteAt 100 := by decide

theorem witness_PushIsSeenByTheNextFetch :
    Fetches (testState 251 [(7, 0xFE#8)] [(251, 0x45#8), (252, 0x07#8)]) 0x45#8 0x07#8 0x00#8 ∧
      (0x07#8).toNat = (7 : Fin 8).val ∧ ((testState 251 [(7, 0xFE#8)] []).sp - 1#8).toNat = 251 + 2 := 
    ⟨⟨rfl, by decide, by decide, by decide, by decide⟩, by decide, by decide⟩

/-- Both sides of the address bound. -/
theorem witness_MemoryReadsTheLatestWrite :
    ∃ t, memWrite 255 300 State.reset = .ok t ∧ memRead 255 t = .ok 44#8 ∧
      memRead 256 t = .error ⟨.memoryRange, 256⟩ := ⟨_, rfl, rfl, rfl⟩

theorem witness_EqualReadsMeanEqualMemories :
    Memory.wf [(0, 1#8), (255, 2#8)] := by decide

theorem witness_DecodeInvertsEncode :
    3 ≤ (encode .ret ++ [0xFF#8, 0xFF#8]).length ∧ 3 ≤ (encode (.ldi 255#8 255#8) ++ []).length := by decide

theorem witness_EncodeInvertsDecode :
    decode 0x47#8 0xFF#8 0xFF#8 = .ok (.prn 255#8) ∧ decode 0x02#8 0#8 0#8 = .error (.unknownOpcode 2#8) := by decide

theorem witness_EncodingsDetermineTheInstruction :
    encode (.push 7#8) ++ [0x46#8] = encode (.push 7#8) ++ [0x46#8] := rfl

theorem witness_UnusedOperandBytesAreIgnored :
    decode 0x11#8 0xFF#8 0xFF#8 = .ok .ret ∧ (encode .ret).length = 1 ∧
      decode 0x50#8 0x07#8 0xFF#8 = .ok (.call 7#8) ∧ (encode (.call 7#8)).length = 2 := by decide

theorem witness_PlacedWordIsRunNext :
    decodeTableWord 24 0xFF0782 = some (.ldi 7#8 255#8) ∧ (testState 253 [] []).pc ≤ 253 ∧
      stepMeets ((testState 253 [] []).withFetchWord 24 0xFF0782) (fun t => t.sp == 0xFF#8) = true ∧
      stepMeets ((testState 256 [] []).halt.withFetchWord 24 0xFF0782) (fun t => t.sp == 0xFF#8) = true := by decide

end Sys2Proof.Tests
end

section
/-! PROOFS. The statements about the state (spec/10_state.md). -/

namespace Sys2Proof.Machine

/-- A write through the register operand 7 succeeds, and it is a change of SP (R22, R26). -/
theorem writeReg_seven {a : Byte} (h : a.toNat = 7) (v : Nat) (s : State) :
    writeReg a v s = .ok (s.setSp (mask8 v)) := by
  rw [State.setSp_eq_setReg]
  exact writeReg_of_eq (j := 7) h v s

/-- Frame of a register write: every register but the written one keeps its value. -/
theorem State.setReg_sameRegsBut (s : State) (j : Fin 8) (v : Byte) : SameRegsBut [j] s (s.setReg j v) :=
  fun _ hk => State.setReg_reg_of_ne s (List.ne_of_not_mem_cons hk) v

/-- Settles O36: SP and register 7 are one cell, so each clause is a law of `setReg` at index 7. -/
theorem stackPointerIsRegisterSeven : Obligations.StackPointerIsRegisterSeven := by
  intro s
  refine ⟨s.sp_eq_reg, fun a v ha => ?operand, fun v => ?change⟩
  case operand => exact ⟨s.setSp (mask8 v), writeReg_seven ha v s, s.setSp_sp (mask8 v)⟩
  case change =>
    rw [State.setSp_eq_setReg]
    exact ⟨s.setReg_reg_self 7 v, s.setReg_sameRegsBut 7 v⟩

end Sys2Proof.Machine
end

section
/-! PROOFS. The statement about instructions that never fault (spec/60_exceptions.md R205), from one equation per
dispatched instruction: what its execute phase answers when its register operands name registers. -/

namespace Sys2Proof

/-- An operand byte that passes the well-formedness check is the index of a register (R83, R92). -/
theorem registerNamed_iff (v : Byte) : registerNamed v = true ↔ ∃ j : Fin 8, v.toNat = j.val :=
  ⟨fun h => ⟨⟨v.toNat, of_decide_eq_true h⟩, rfl⟩, fun ⟨j, hj⟩ => decide_eq_true (hj ▸ j.isLt)⟩

/-- The well-formedness check of the two-operand forms ADD and MUL. -/
theorem registerNamed_both_iff (a b : Byte) : (registerNamed a && registerNamed b) = true ↔
    (∃ j : Fin 8, a.toNat = j.val) ∧ ∃ k : Fin 8, b.toNat = k.val := by
  rw [Bool.and_eq_true, registerNamed_iff, registerNamed_iff]

namespace Machine

/-- A phase that succeeds hands its value to the rest of the handler. -/
theorem ok_bind {α β : Type} (x : α) (f : α → Except Raise β) : (Except.ok x >>= f) = f x := rfl

theorem exec_hlt (s : State) : exec .hlt s = .next s.halt := rfl

section
variable {a b : Byte} {j k : Fin 8}

theorem exec_ldi_named (ha : a.toNat = j.val) (imm : Byte) (s : State) :
    exec (.ldi a imm) s = .next ((s.setReg j imm).advance 3) := by
  rw [exec, execLdi, writeReg_of_eq ha, immediate, mask8_toNat, ok_bind]
  rfl

theorem exec_prn_named (ha : a.toNat = j.val) (s : State) :
    exec (.prn a) s = .next ((s.emit (s.reg j)).advance 2) := by
  rw [exec, execPrn, readReg_of_eq ha, ok_bind]
  rfl

theorem exec_add_named (ha : a.toNat = j.val) (hb : b.toNat = k.val) (s : State) :
    exec (.add a b) s = .next ((s.setReg j (s.reg j + s.reg k)).advance 3) := by
  have hsum : mask8 (((s.reg j).toNat + (s.reg k).toNat) % 256) = s.reg j + s.reg k := by
    rw [← mask8_toNat (s.reg j + s.reg k), BitVec.toNat_add]
  rw [exec, execAdd, alu_ok (op := .add) rfl ha hb, hsum, ok_bind]
  rfl

theorem exec_mul_named (ha : a.toNat = j.val) (hb : b.toNat = k.val) (s : State) :
    exec (.mul a b) s = .next ((s.setReg j (s.reg j * s.reg k)).advance 3) := by
  have hprod : mask8 (((s.reg j).toNat * (s.reg k).toNat) % 256) = s.reg j * s.reg k := by
    rw [← mask8_toNat (s.reg j * s.reg k), BitVec.toNat_mul]
  rw [exec, execMul, alu_ok (op := .mul) rfl ha hb, hprod, ok_bind]
  rfl

theorem exec_push_named (ha : a.toNat = j.val) (s : State) :
    exec (.push a) s =
      .next (((s.setSp (s.sp - 1#8)).setByte (s.sp - 1#8).toNat (s.reg j)).advance 2) := by
  rw [exec, execPush, readReg_of_eq ha, ok_bind, pushValue_eq, mask8_toNat, ok_bind]
  rfl

theorem exec_pop_named (ha : a.toNat = j.val) (s : State) :
    exec (.pop a) s =
      .next (((s.setSp (s.sp + 1#8)).setReg j (s.byteAt s.sp.toNat)).advance 2) := by
  simp only [exec, execPop, popValue_eq, ok_bind, writeReg_of_eq ha, mask8_toNat]
  rfl

/-- The target is read after the push, so it is the decremented SP for R7 (R181). -/
theorem exec_call_named (ha : a.toNat = j.val) (s : State) :
    exec (.call a) s =
      .next (((s.setSp (s.sp - 1#8)).setByte (s.sp - 1#8).toNat (mask8 (returnAddress s))).jump
        ((s.setSp (s.sp - 1#8)).reg j)) := by
  rw [exec, execCall, pushValue_eq, ok_bind, readReg_of_eq ha, ok_bind]
  rfl

end

theorem exec_ret (s : State) :
    exec .ret s = .next ((s.setSp (s.sp + 1#8)).jump (s.byteAt s.sp.toNat)) := by
  rw [exec, execRet, popValue_eq, ok_bind]
  rfl

/-- A dispatched instruction with named registers commits, and only HLT touches the status. -/
theorem exec_keeps_status {i : Instr} (hd : i.dispatched = true) (hw : i.wellFormed = true) (hi : i ≠ .hlt)
    (s : State) : ∃ t, exec i s = .next t ∧ t.status = s.status := by
  cases i with
  | nop | ld | st | pra => exact absurd hd Bool.false_ne_true
  | hlt => exact absurd rfl hi
  | ldi a imm =>
    obtain ⟨j, ha⟩ := (registerNamed_iff a).1 hw
    exact ⟨_, exec_ldi_named ha imm s, rfl⟩
  | prn a =>
    obtain ⟨j, ha⟩ := (registerNamed_iff a).1 hw
    exact ⟨_, exec_prn_named ha s, rfl⟩
  | mul a b =>
    obtain ⟨⟨j, ha⟩, k, hb⟩ := (registerNamed_both_iff a b).1 hw
    exact ⟨_, exec_mul_named ha hb s, rfl⟩
  | add a b =>
    obtain ⟨⟨j, ha⟩, k, hb⟩ := (registerNamed_both_iff a b).1 hw
    exact ⟨_, exec_add_named ha hb s, rfl⟩
  | push a =>
    obtain ⟨j, ha⟩ := (registerNamed_iff a).1 hw
    exact ⟨_, exec_push_named ha s, rfl⟩
  | pop a =>
    obtain ⟨j, ha⟩ := (registerNamed_iff a).1 hw
    exact ⟨_, exec_pop_named ha s, rfl⟩
  | call a =>
    obtain ⟨j, ha⟩ := (registerNamed_iff a).1 hw
    exact ⟨_, exec_call_named ha s, rfl⟩
  | ret => exact ⟨_, exec_ret s, rfl⟩

/-- Settles O12: HLT halts, and every other dispatched form commits a state with the status it began with. -/
theorem wellFormedDispatchedInstructionsNeverFault : Obligations.WellFormedDispatchedInstructionsNeverFault := by
  intro i s hd hw hs
  rcases eq_or_ne i .hlt with rfl | hi
  · exact ⟨s.halt, exec_hlt s, .inr ⟨rfl, s.halt_status⟩⟩
  · obtain ⟨t, ht, hst⟩ := exec_keeps_status hd hw hi s
    exact ⟨t, ht, .inl (hst.trans hs)⟩

end Machine
end Sys2Proof
end

section
/-! PROOFS. The statement about the first fetch after a load (spec/70_reset_and_hazards.md R241), from the inversion of
`load` and the byte a loaded state holds at each address. -/

namespace Sys2Proof.Machine

/-- The bytes of a program placed in the empty memory; every address past its end is unlisted (R35, R242). -/
theorem Memory.read_place_nil (P : List Byte) (x : Nat) :
    (Memory.place [] 0 P).read x = P.getD x Memory.unlisted := by
  rw [Memory.read_place]
  split
  · next h => exact (List.getD_eq_getElem P _ h.2).symm
  · next h => exact (List.getD_eq_default P _ (by omega)).symm

/-- Inversion of the load: a run starts only in the reset state with the program at address 0 (R242). -/
theorem eq_of_load_eq_next {P : List Byte} {s : State} (h : load P = .next s) :
    s = { State.reset with mem := Memory.place [] 0 P } := by
  rw [load] at h
  split at h <;> cases h
  rfl

theorem load_pc {P : List Byte} {s : State} (h : load P = .next s) : s.pc = 0 := by
  rw [eq_of_load_eq_next h]
  rfl

theorem load_byteAt {P : List Byte} {s : State} (h : load P = .next s) (x : Nat) : s.byteAt x = P.getD x 0#8 := by
  rw [eq_of_load_eq_next h]
  exact Memory.read_place_nil P x

/-- Settles O46: `pc` is 0, which is in range of the fetch, and each latched byte is the program's. -/
theorem firstFetchReadsTheProgramAtZero : Obligations.FirstFetchReadsTheProgramAtZero := by
  intro P s h
  have hpc : s.pc = 0 := load_pc h
  have hfetch : fetch s = .ok ⟨s.byteAt 0, s.byteAt 1, s.byteAt 2⟩ := by
    simpa only [hpc] using fetch_of_le (s := s) (by omega)
  exact ⟨hpc, hfetch, by rw [hfetch, load_byteAt h, load_byteAt h, load_byteAt h]⟩

end Sys2Proof.Machine
end

section
/-! PROOFS. What the execute phase answers on a register operand out of range, and the state after a push: the rules
the statements about steps and instructions are assembled from. -/

namespace Sys2Proof.Machine

/-! ### The state after a push -/

/-- `s` after `push_value` of the byte `v` (spec/43_stack.md R160). -/
def State.pushed (s : State) (v : Byte) : State := (s.setSp (s.sp - 1#8)).setByte (s.sp - 1#8).toNat v

theorem pushValue_eq_pushed (v : Nat) (s : State) : pushValue v s = .ok (s.pushed (mask8 v)) := pushValue_eq v s

section
variable (s : State) (v : Byte)

@[simp] theorem State.pushed_mem : (s.pushed v).mem = s.mem.write (s.sp - 1#8).toNat v := rfl
@[simp] theorem State.pushed_pc : (s.pushed v).pc = s.pc := rfl
@[simp] theorem State.pushed_status : (s.pushed v).status = s.status := rfl
@[simp] theorem State.pushed_out : (s.pushed v).out = s.out := rfl
@[simp] theorem State.pushed_sp : (s.pushed v).sp = s.sp - 1#8 := s.setSp_sp (s.sp - 1#8)
@[simp] theorem State.pushed_byteAt_top : (s.pushed v).byteAt (s.sp - 1#8).toNat = v :=
  State.setByte_byteAt_self (s.setSp (s.sp - 1#8)) (s.sp - 1#8).toNat v

/-- Frame of a write of SP. -/
theorem State.setSp_sameRegsBut : SameRegsBut [7] s (s.setSp v) := s.setReg_sameRegsBut 7 v

/-- Frame of a push in the registers: SP alone changes. -/
theorem State.pushed_sameRegsBut : SameRegsBut [7] s (s.pushed v) := s.setSp_sameRegsBut (s.sp - 1#8)

/-- Frame of a byte write in memory. -/
theorem State.setByte_sameMemoryBut (x : Nat) : SameMemoryBut x s (s.setByte x v) :=
  fun y hy => (s.setByte_byteAt x v y).trans (if_neg hy)

/-- Frame of a push in memory: the byte below the old top alone changes. -/
theorem State.pushed_sameMemoryBut : SameMemoryBut (s.sp - 1#8).toNat s (s.pushed v) :=
  (s.setSp (s.sp - 1#8)).setByte_sameMemoryBut v (s.sp - 1#8).toNat

end

/-! ### Register operands out of range -/

/-- A phase that raises discards the rest of the handler. -/
theorem error_bind {α β : Type} (r : Raise) (f : α → Except Raise β) : (Except.error r >>= f) = .error r := rfl

section
variable {a b : Byte} {j : Fin 8} (s : State)

theorem exec_ldi_out (ha : 8 ≤ a.toNat) (imm : Byte) :
    exec (.ldi a imm) s = .next (takeFault (some 0x82#8) ⟨.registerRange, a.toNat⟩ s) := by
  rw [exec, execLdi, writeReg_of_le ha, error_bind]
  rfl

theorem exec_prn_out (ha : 8 ≤ a.toNat) :
    exec (.prn a) s = .next (takeFault (some 0x47#8) ⟨.registerRange, a.toNat⟩ s) := by
  rw [exec, execPrn, readReg_of_le ha, error_bind]
  rfl

theorem exec_add_a_out (ha : 8 ≤ a.toNat) (b : Byte) :
    exec (.add a b) s = .next (takeFault (some 0xA0#8) ⟨.registerRange, a.toNat⟩ s) := by
  rw [exec, execAdd, alu_a_out (op := .add) rfl ha, error_bind]
  rfl

theorem exec_add_b_out (ha : a.toNat = j.val) (hb : 8 ≤ b.toNat) :
    exec (.add a b) s = .next (takeFault (some 0xA0#8) ⟨.registerRange, b.toNat⟩ s) := by
  rw [exec, execAdd, alu_b_out (op := .add) rfl ha hb, error_bind]
  rfl

theorem exec_mul_a_out (ha : 8 ≤ a.toNat) (b : Byte) :
    exec (.mul a b) s = .next (takeFault (some 0xA2#8) ⟨.registerRange, a.toNat⟩ s) := by
  rw [exec, execMul, alu_a_out (op := .mul) rfl ha, error_bind]
  rfl

theorem exec_mul_b_out (ha : a.toNat = j.val) (hb : 8 ≤ b.toNat) :
    exec (.mul a b) s = .next (takeFault (some 0xA2#8) ⟨.registerRange, b.toNat⟩ s) := by
  rw [exec, execMul, alu_b_out (op := .mul) rfl ha hb, error_bind]
  rfl

theorem exec_push_out (ha : 8 ≤ a.toNat) :
    exec (.push a) s = .next (takeFault (some 0x45#8) ⟨.registerRange, a.toNat⟩ s) := by
  rw [exec, execPush, readReg_of_le ha, error_bind]
  rfl

theorem exec_pop_out (ha : 8 ≤ a.toNat) :
    exec (.pop a) s = .next (takeFault (some 0x46#8) ⟨.registerRange, a.toNat⟩ s) := by
  simp only [exec, execPop, popValue_eq, ok_bind, writeReg_of_le ha, error_bind]
  rfl

/-- The push comes before the index check, and the fault discards it (R208). -/
theorem exec_call_out (ha : 8 ≤ a.toNat) :
    exec (.call a) s = .next (takeFault (some 0x50#8) ⟨.registerRange, a.toNat⟩ s) := by
  rw [exec, execCall, pushValue_eq, ok_bind, readReg_of_le ha, error_bind]
  rfl

end

end Sys2Proof.Machine
end

section
/-! PROOFS. What a step can do, said once: a running step takes one of four faults (`Faults`) or commits one of nine
effects (`Commits`), and every statement about steps is a case analysis of the two. -/

namespace Sys2Proof.Machine

/-- The fault of a running step, with the opcode it records: R202, R201, and R203 for either operand. -/
inductive Faults (s : State) : Option Byte → Raise → Prop where
  | fetch (hs : s.status = .running) (hpc : 254 ≤ s.pc) :
      Faults s (if s.pc ≤ 255 then some (s.byteAt s.pc) else none) ⟨.memoryRange, max 256 s.pc⟩
  | unknown {op a b : Byte} (hf : Fetches s op a b) (hop : op ∉ dispatchTable) :
      Faults s (some op) ⟨.unknownInstruction, op.toNat⟩
  | operandA {op a b : Byte} (hf : Fetches s op a b) (hop : op ∈ checksOperandA) (ha : 8 ≤ a.toNat) :
      Faults s (some op) ⟨.registerRange, a.toNat⟩
  | operandB {op a b : Byte} {j : Fin 8} (hf : Fetches s op a b) (hop : op ∈ checksOperandB) (ha : a.toNat = j.val)
      (hb : 8 ≤ b.toNat) : Faults s (some op) ⟨.registerRange, b.toNat⟩

/-- What a step that latched `op`, `a`, `b` commits: one case per dispatched instruction with named registers. -/
inductive Commits (s : State) : Byte → Byte → Byte → State → Prop where
  | hlt {a b : Byte} : Commits s 0x01#8 a b s.halt
  | ldi {a b : Byte} {j : Fin 8} (ha : a.toNat = j.val) : Commits s 0x82#8 a b ((s.setReg j b).advance 3)
  | prn {a b : Byte} {j : Fin 8} (ha : a.toNat = j.val) : Commits s 0x47#8 a b ((s.emit (s.reg j)).advance 2)
  | mul {a b : Byte} {j k : Fin 8} (ha : a.toNat = j.val) (hb : b.toNat = k.val) :
      Commits s 0xA2#8 a b ((s.setReg j (s.reg j * s.reg k)).advance 3)
  | add {a b : Byte} {j k : Fin 8} (ha : a.toNat = j.val) (hb : b.toNat = k.val) :
      Commits s 0xA0#8 a b ((s.setReg j (s.reg j + s.reg k)).advance 3)
  | push {a b : Byte} {j : Fin 8} (ha : a.toNat = j.val) : Commits s 0x45#8 a b ((s.pushed (s.reg j)).advance 2)
  | pop {a b : Byte} {j : Fin 8} (ha : a.toNat = j.val) :
      Commits s 0x46#8 a b (((s.setSp (s.sp + 1#8)).setReg j (s.byteAt s.sp.toNat)).advance 2)
  | call {a b : Byte} {j : Fin 8} (ha : a.toNat = j.val) :
      Commits s 0x50#8 a b ((s.pushed (mask8 (returnAddress s))).jump ((s.setSp (s.sp - 1#8)).reg j))
  | ret {a b : Byte} : Commits s 0x11#8 a b ((s.setSp (s.sp + 1#8)).jump (s.byteAt s.sp.toNat))

/-! ### The step of a fetch in range -/

section
variable {s t : State} {op a b : Byte} {o : Option Byte} {q : Raise}

theorem fetches_of_le (hs : s.status = .running) (hpc : s.pc ≤ 253) :
    Fetches s (s.byteAt s.pc) (s.byteAt (s.pc + 1)) (s.byteAt (s.pc + 2)) := ⟨hs, hpc, rfl, rfl, rfl⟩

theorem Fetches.running (hf : Fetches s op a b) : s.status = .running := hf.1

theorem Fetches.pc_le (hf : Fetches s op a b) : s.pc ≤ 253 := hf.2.1

theorem Fetches.fetch_eq (hf : Fetches s op a b) : fetch s = .ok ⟨op, a, b⟩ := by
  obtain ⟨-, hpc, rfl, rfl, rfl⟩ := hf
  exact fetch_of_le hpc

/-- A step whose fetch is in range is the execute phase of what it decodes (R112, R113). -/
theorem Fetches.step_eq_exec (hf : Fetches s op a b) {i : Instr} (hd : decode op a b = .ok i) : step s = exec i s :=
  step_of_decode_ok hf.running hf.fetch_eq hd

/-- NOP and the reserved constants decode, and raise what an unknown opcode raises (R89, R116). -/
theorem exec_undispatched {i : Instr} (hi : i.opcode ∉ dispatchTable) (s : State) :
    exec i s = raiseUnknown i.opcode s := by
  cases i with
  | nop | ld | st | pra => rfl
  | hlt | ldi _ _ | prn _ | mul _ _ | add _ _ | push _ | pop _ | call _ | ret =>
    exact absurd (by simp [dispatchTable, Instr.opcode]) hi

/-- Every byte without a dispatch entry raises UnknownInstruction, whether it decodes or not (R201). -/
theorem Fetches.step_undispatched (hf : Fetches s op a b) (hop : op ∉ dispatchTable) : step s = raiseUnknown op s := by
  cases hd : decode op a b with
  | error e => exact step_of_decode_error hf.running hf.fetch_eq hd
  | ok i =>
    obtain rfl := decode_opcode hd
    rw [hf.step_eq_exec hd, exec_undispatched hop]

/-- A register operand `a` out of range is the fault of every instruction that uses it (R203). -/
theorem Fetches.step_operandA_out (hf : Fetches s op a b) (hop : op ∈ checksOperandA) (ha : 8 ≤ a.toNat) :
    step s = .next (takeFault (some op) ⟨.registerRange, a.toNat⟩ s) := by
  simp only [checksOperandA, List.mem_cons, List.not_mem_nil, or_false] at hop
  rcases hop with rfl | rfl | rfl | rfl | rfl | rfl | rfl
  · rw [hf.step_eq_exec rfl, exec_ldi_out s ha]
  · rw [hf.step_eq_exec rfl, exec_prn_out s ha]
  · rw [hf.step_eq_exec rfl, exec_mul_a_out s ha]
  · rw [hf.step_eq_exec rfl, exec_add_a_out s ha]
  · rw [hf.step_eq_exec rfl, exec_push_out s ha]
  · rw [hf.step_eq_exec rfl, exec_pop_out s ha]
  · rw [hf.step_eq_exec rfl, exec_call_out s ha]

/-- A register operand `b` out of range is the fault of ADD and MUL once `a` is in range (R203, R207). -/
theorem Fetches.step_operandB_out (hf : Fetches s op a b) (hop : op ∈ checksOperandB) {j : Fin 8}
    (ha : a.toNat = j.val) (hb : 8 ≤ b.toNat) :
    step s = .next (takeFault (some op) ⟨.registerRange, b.toNat⟩ s) := by
  simp only [checksOperandB, List.mem_cons, List.not_mem_nil, or_false] at hop
  rcases hop with rfl | rfl
  · rw [hf.step_eq_exec rfl, exec_mul_b_out s ha hb]
  · rw [hf.step_eq_exec rfl, exec_add_b_out s ha hb]

/-! ### From the case to the step, and back -/

theorem Faults.step_eq (h : Faults s o q) : step s = .next (takeFault o q s) := by
  cases h with
  | fetch hs hpc => exact step_of_fetch_error hs (fetch_of_ge hpc)
  | unknown hf hop => exact hf.step_undispatched hop
  | operandA hf hop ha => exact hf.step_operandA_out hop ha
  | operandB hf hop ha hb => exact hf.step_operandB_out hop ha hb

theorem Commits.step_eq (h : Commits s op a b t) (hf : Fetches s op a b) : step s = .next t := by
  cases h with
  | hlt => rw [hf.step_eq_exec rfl, exec_hlt]
  | ldi ha => rw [hf.step_eq_exec rfl, exec_ldi_named ha]
  | prn ha => rw [hf.step_eq_exec rfl, exec_prn_named ha]
  | mul ha hb => rw [hf.step_eq_exec rfl, exec_mul_named ha hb]
  | add ha hb => rw [hf.step_eq_exec rfl, exec_add_named ha hb]
  | push ha => exact (hf.step_eq_exec rfl).trans (exec_push_named ha s)
  | pop ha => rw [hf.step_eq_exec rfl, exec_pop_named ha]
  | call ha => exact (hf.step_eq_exec rfl).trans (exec_call_named ha s)
  | ret => rw [hf.step_eq_exec rfl, exec_ret]

/-- The two ways of ADD and MUL once the fetch is in range: an operand out of range, or both named. -/
theorem faults_or_named (hf : Fetches s op a b) (hA : op ∈ checksOperandA) (hB : op ∈ checksOperandB) :
    (∃ o q, Faults s o q) ∨ ∃ j k : Fin 8, a.toNat = j.val ∧ b.toNat = k.val := by
  rcases operand_cases a with ⟨j, ha⟩ | ha
  · rcases operand_cases b with ⟨k, hb⟩ | hb
    · exact .inr ⟨j, k, ha, hb⟩
    · exact .inl ⟨_, _, .operandB hf hB ha hb⟩
  · exact .inl ⟨_, _, .operandA hf hA ha⟩

/-- The two ways of an instruction with one register operand. -/
theorem faults_or_named_a (hf : Fetches s op a b) (hA : op ∈ checksOperandA) :
    (∃ o q, Faults s o q) ∨ ∃ j : Fin 8, a.toNat = j.val :=
  (operand_cases a).symm.imp_left fun ha => ⟨_, _, .operandA hf hA ha⟩

/-- A fetch in range ends in a fault or commits. -/
theorem Fetches.faults_or_commits (hf : Fetches s op a b) : (∃ o q, Faults s o q) ∨ ∃ t, Commits s op a b t := by
  by_cases hop : op ∈ dispatchTable
  case neg => exact .inl ⟨_, _, .unknown hf hop⟩
  simp only [dispatchTable, List.mem_cons, List.not_mem_nil, or_false] at hop
  rcases hop with rfl | rfl | rfl | rfl | rfl | rfl | rfl | rfl | rfl
  · exact .inr ⟨_, .hlt⟩
  · exact (faults_or_named_a hf (by decide)).imp_right fun ⟨_, ha⟩ => ⟨_, .ldi ha⟩
  · exact (faults_or_named_a hf (by decide)).imp_right fun ⟨_, ha⟩ => ⟨_, .prn ha⟩
  · exact (faults_or_named hf (by decide) (by decide)).imp_right fun ⟨_, _, ha, hb⟩ => ⟨_, .mul ha hb⟩
  · exact (faults_or_named hf (by decide) (by decide)).imp_right fun ⟨_, _, ha, hb⟩ => ⟨_, .add ha hb⟩
  · exact (faults_or_named_a hf (by decide)).imp_right fun ⟨_, ha⟩ => ⟨_, .push ha⟩
  · exact (faults_or_named_a hf (by decide)).imp_right fun ⟨_, ha⟩ => ⟨_, .pop ha⟩
  · exact (faults_or_named_a hf (by decide)).imp_right fun ⟨_, ha⟩ => ⟨_, .call ha⟩
  · exact .inr ⟨_, .ret⟩

/-- A running state takes a fault, or fetches bytes and commits. -/
theorem faults_or_commits (hs : s.status = .running) :
    (∃ o q, Faults s o q) ∨ ∃ op a b t, Fetches s op a b ∧ Commits s op a b t := by
  rcases Nat.lt_or_ge s.pc 254 with hpc | hpc
  · have hf := fetches_of_le hs (Nat.le_of_lt_succ hpc)
    exact hf.faults_or_commits.imp_right fun ⟨_, hc⟩ => ⟨_, _, _, _, hf, hc⟩
  · exact .inl ⟨_, _, .fetch hs hpc⟩

theorem step_of_halted (hs : s.status = .halted) : step s = .fault .runOverHalted := by
  simp only [step, hs]

theorem step_of_faulted {r : FaultRecord} (hs : s.status = .faulted r) : step s = .fault (.runOverFaulted r) := by
  simp only [step, hs]

theorem running_of_step (h : step s = .next t) : s.status = .running := by
  cases hs : s.status with
  | running => rfl
  | halted => rw [step_of_halted hs] at h; cases h
  | faulted r => rw [step_of_faulted hs] at h; cases h

/-- Inversion of the step: every next state is a fault taken or an effect committed. -/
theorem step_cases (h : step s = .next t) :
    (∃ o q, Faults s o q ∧ t = takeFault o q s) ∨ ∃ op a b, Fetches s op a b ∧ Commits s op a b t := by
  rcases faults_or_commits (running_of_step h) with ⟨o, q, hq⟩ | ⟨op, a, b, u, hf, hc⟩
  · rw [hq.step_eq] at h
    cases h
    exact .inl ⟨o, q, hq, rfl⟩
  · rw [hc.step_eq hf] at h
    cases h
    exact .inr ⟨op, a, b, hf, hc⟩

/-! ### What a commit does to the status, the memory and the `pc` -/

/-- HLT alone touches the status. -/
theorem Commits.status_cases (h : Commits s op a b t) :
    op = 0x01#8 ∧ t.status = .halted ∨ op ≠ 0x01#8 ∧ t.status = s.status := by
  cases h with
  | hlt => exact .inl ⟨rfl, rfl⟩
  | ldi | prn | mul | add | push | pop | call | ret => exact .inr ⟨by decide, rfl⟩

/-- A step that commits leaves no fault record. -/
theorem Commits.not_faulted (h : Commits s op a b t) (hf : Fetches s op a b) (r : FaultRecord) :
    t.status ≠ .faulted r := by
  rcases h.status_cases with ⟨-, ht⟩ | ⟨-, ht⟩
  · rw [ht]; nofun
  · rw [ht, hf.running]; nofun

/-- PUSH and CALL alone write memory, one byte below the top of the stack. -/
theorem Commits.mem_cases (h : Commits s op a b t) :
    t.mem = s.mem ∨ op ∈ [0x45#8, 0x50#8] ∧ ∃ v, t.mem = s.mem.write (s.sp - 1#8).toNat v := by
  cases h with
  | hlt | ldi | prn | mul | add | pop | ret => exact .inl rfl
  | push | call => exact .inr ⟨by decide, _, rfl⟩

/-- A commit advances `pc` by at most three bytes or jumps to a byte. -/
theorem Commits.pc_le (h : Commits s op a b t) (hf : Fetches s op a b) : t.pc ≤ 256 := by
  have hpc : s.pc ≤ 253 := hf.pc_le
  cases h with
  | hlt => exact hpc.trans (by decide)
  | ldi | mul | add => exact Nat.add_le_add_right hpc 3
  | prn | push | pop => exact (Nat.add_le_add_right hpc 2).trans (by decide)
  | call | ret => exact (BitVec.isLt _).le

/-- Inversion of a step that faults: its record is that of the fault it takes (R208). -/
theorem step_faulted {r : FaultRecord} (h : step s = .next t) (hr : t.status = .faulted r) :
    ∃ o q, Faults s o q ∧ t = takeFault o q s ∧ r = ⟨q.cause, s.pc, o, q.info⟩ := by
  rcases step_cases h with ⟨o, q, hq, rfl⟩ | ⟨op, a, b, hf, hc⟩
  · cases hr
    exact ⟨o, q, hq, rfl, rfl⟩
  · exact absurd hr (hc.not_faulted hf r)

end

end Sys2Proof.Machine
end

section
/-! PROOFS. The machine invariant (spec/10_state.md section 2 to 4, spec/60_exceptions.md section 1): it holds at reset,
every step keeps it, and so do the runs of loaded programs. -/

namespace Sys2Proof.Machine

theorem checksOperandB_subset {op : Byte} (h : op ∈ checksOperandB) : op ∈ checksOperandA := by
  simp only [checksOperandB, List.mem_cons, List.not_mem_nil, or_false] at h
  rcases h with rfl | rfl <;> decide

/-- The record of a fault is one the fault rules explain, if the step began with `pc` in its range (R200 to R207). -/
theorem Faults.explained {s : State} {o : Option Byte} {q : Raise} (h : Faults s o q) (hpc : s.pc ≤ 256) :
    FaultRecord.Explained ⟨q.cause, s.pc, o, q.info⟩ := by
  cases h with
  | fetch _ hge =>
    refine ⟨hge, hpc, Nat.max_eq_left hpc, ?_⟩
    rw [ite_eq_right_iff]
    simp only [reduceCtorEq, imp_false]
    omega
  | unknown hf hop => exact ⟨hf.pc_le, _, rfl, hop, rfl⟩
  | operandA hf hop ha => exact ⟨hf.pc_le, ⟨_, hop, rfl⟩, ha, Nat.le_of_lt_succ (BitVec.isLt _)⟩
  | operandB hf hop _ hb =>
    exact ⟨hf.pc_le, ⟨_, checksOperandB_subset hop, rfl⟩, hb, Nat.le_of_lt_succ (BitVec.isLt _)⟩

/-- Taking a fault keeps the invariant: it changes the status alone. -/
theorem StateInv.takeFault {s : State} {o : Option Byte} {q : Raise} (hs : StateInv s) (hq : Faults s o q) :
    StateInv (takeFault o q s) where
  memory := hs.memory
  pcRange := hs.pcRange
  fault r hr := by
    cases hr
    exact hq.explained hs.pcRange

/-- A commit keeps the invariant: its one memory write is at a byte address. -/
theorem StateInv.commit {s t : State} {op a b : Byte} (hs : StateInv s) (hf : Fetches s op a b)
    (hc : Commits s op a b t) : StateInv t where
  memory := by
    rcases hc.mem_cases with hm | ⟨-, v, hm⟩
    · rw [hm]; exact hs.memory
    · rw [hm]; exact Memory.wf_write hs.memory (BitVec.isLt _) v
  pcRange := hc.pc_le hf
  fault r hr := absurd hr (hc.not_faulted hf r)

/-- Settles O28: a step takes a fault or commits, and each keeps the invariant. -/
theorem everyStepKeepsTheInvariant : Obligations.EveryStepKeepsTheInvariant := by
  intro s t hs h
  rcases step_cases h with ⟨o, q, hq, rfl⟩ | ⟨op, a, b, hf, hc⟩
  · exact hs.takeFault hq
  · exact hs.commit hf hc

end Sys2Proof.Machine
end

section
/-! PROOFS. The statements about the encoding (spec/30_encoding.md): the round trip of the decoder, and what follows from
it. -/

namespace Sys2Proof

/-- The decoder drops the bytes past the third (R82). -/
theorem decodeBytes_cons (op a b : Byte) (rest : List Byte) : decodeBytes (op :: a :: b :: rest) = decode op a b := rfl

/-- Settles O40: the operands an instruction has are the bytes after its opcode, and `rest` supplies the other ones that
a fetch reads. -/
theorem decodeInvertsEncode : Obligations.DecodeInvertsEncode := by
  intro i rest h
  cases i with
  | ldi _ _ | mul _ _ | add _ _ => rfl
  | prn _ | push _ | pop _ | call _ =>
    match rest, h with
    | _ :: _, _ => rfl
  | nop | hlt | ret | ld | st | pra =>
    match rest, h with
    | _ :: _ :: _, _ => rfl

/-- The opcode of an instruction decodes, whatever follows it. -/
theorem decode_opcode_ok (i : Instr) (a b : Byte) : ∃ k, decode i.opcode a b = .ok k := by
  cases i <;> exact ⟨_, rfl⟩

/-- What decodes begins with the encoding of its instruction. -/
theorem encode_of_decode {op a b : Byte} {i : Instr} (h : decode op a b = .ok i) :
    encode i = [op, a, b].take (encode i).length := by
  rcases decode_cases h with h | h | h | h | h | h | h | h | h | h | h | h | h <;> obtain ⟨rfl, rfl⟩ := h <;> rfl

/-- Settles O41: the decoder rejects unknown opcodes alone, and the opcode of an instruction is not one. -/
theorem encodeInvertsDecode : Obligations.EncodeInvertsDecode := by
  intro op a b
  refine ⟨fun i => encode_of_decode, fun e he => ⟨decode_error he, ?_⟩⟩
  rintro i rfl
  obtain ⟨k, hk⟩ := decode_opcode_ok i a b
  rw [hk] at he
  cases he

/-- Settles O42: two zero bytes after each make the equal sequences long enough to decode, to both instructions. -/
theorem encodingsDetermineTheInstruction : Obligations.EncodingsDetermineTheInstruction := by
  intro i j r r' h
  have padded (k : Instr) (rest : List Byte) : decodeBytes (encode k ++ (rest ++ [0#8, 0#8])) = .ok k :=
    decodeInvertsEncode k _ (by simp [encode]; omega)
  have hij : (.ok i : Except DecodeReject Instr) = .ok j := by
    rw [← padded i r, ← padded j r', ← List.append_assoc, ← List.append_assoc, h]
  cases hij
  exact ⟨rfl, List.append_cancel_left h⟩

/-- Settles O44: the sample words, each by one row of the table. -/
theorem sampleWordsDecode : Obligations.SampleWordsDecode :=
  ⟨rfl, rfl, rfl, rfl, rfl, rfl, rfl, rfl, rfl, rfl⟩

namespace Machine

/-- A fetch at `pc >= 254` faults, whatever the opcode (R111). -/
theorem highFetchFaults (s : State) : HighFetchFaults s :=
  fun hs hpc => ⟨_, ⟨_, (Faults.fetch hs hpc).step_eq, rfl⟩, rfl, rfl⟩

/-- Settles O43: the encoding is as long as the bytes the decoder uses, so by the round trip any bytes may follow it. -/
theorem unusedOperandBytesAreIgnored : Obligations.UnusedOperandBytesAreIgnored := by
  refine ⟨fun op a b i h => ⟨fun hlen a' b' => ?one, fun hlen b' => ?two⟩, highFetchFaults⟩
  case one =>
    have henc : encode i = [op] := by simpa [hlen] using encode_of_decode h
    rw [← decodeBytes_cons op a' b' [], ← decodeInvertsEncode i [a', b'] (by simp [henc]), henc,
      List.singleton_append]
  case two =>
    have henc : encode i = [op, a] := by simpa [hlen] using encode_of_decode h
    rw [← decodeBytes_cons op a b' [], ← decodeInvertsEncode i [b'] (by simp [henc]), henc]
    rfl

end Machine
end Sys2Proof
end

section
/-! PROOFS. The statements about registers and memory (spec/20_memory.md, spec/10_state.md section 1 and 4). -/

namespace Sys2Proof.Machine

namespace Memory

/-- Clearing an address undoes what was inserted there. -/
theorem erase_insert (m : Memory) (a : Nat) (v : Byte) : (m.insert (a, v)).erase a = m.erase a := by
  induction m with
  | nil => simp [insert, erase]
  | cons d m ih =>
    rw [insert]
    split
    · simp [erase]
    · simp only [erase, List.filter_cons] at ih ⊢
      rw [ih]

theorem erase_erase (m : Memory) (a : Nat) : (m.erase a).erase a = m.erase a := by
  simp [erase, List.filter_filter]

/-- A write leaves the cells of the other addresses as they were. -/
theorem erase_write (m : Memory) (a : Nat) (v : Byte) : (m.write a v).erase a = m.erase a := by
  rw [write]
  split
  · exact erase_erase m a
  · rw [erase_insert, erase_erase]

/-- The second write to an address leaves nothing of the first (R60). -/
theorem write_write (m : Memory) (a : Nat) (v w : Byte) : (m.write a v).write a w = m.write a w := by
  rw [write, erase_write, ← write]

/-- The canonical form of the tail of a list. -/
theorem wf_tail {c : Host.Cell} {m : Memory} (h : Memory.wf (c :: m)) : m.wf :=
  ⟨(List.pairwise_cons.1 h.1).2, fun d hd => h.2 d (List.mem_cons_of_mem c hd)⟩

/-- In canonical form a listed cell is what a read of its address answers. -/
theorem read_of_mem {m : Memory} (hm : m.wf) {x : Nat} {v : Byte} (h : (x, v) ∈ m) : m.read x = v := by
  induction m with
  | nil => cases h
  | cons c m ih =>
    rw [read]
    rcases List.mem_cons.1 h with rfl | h
    · exact if_pos rfl
    · have hlt : c.1 < x := (List.pairwise_cons.1 hm.1).1 (x, v) h
      rw [if_neg hlt.ne', ih (wf_tail hm) h]

/-- An address that reads other than an unlisted one is listed. -/
theorem mem_of_read {m : Memory} {x : Nat} (h : m.read x ≠ unlisted) : (x, m.read x) ∈ m := by
  induction m with
  | nil => exact absurd rfl h
  | cons c m ih =>
    obtain ⟨b, w⟩ := c
    rw [read] at h ⊢
    by_cases hx : x = b
    · simp [hx]
    · rw [if_neg hx] at h ⊢
      exact List.mem_cons_of_mem _ (ih h)

/-- A cell of one memory is a cell of every other one that reads alike. -/
theorem mem_of_read_eq {m n : Memory} (hm : m.wf) (h : ∀ x, x < 256 → m.read x = n.read x) {c : Host.Cell}
    (hc : c ∈ m) : c ∈ n := by
  obtain ⟨x, v⟩ := c
  obtain ⟨hx, hv⟩ := hm.2 (x, v) hc
  have hn : n.read x = v := (h x hx).symm.trans (read_of_mem hm hc)
  have hmem : (x, n.read x) ∈ n := mem_of_read (by rwa [hn])
  rwa [hn] at hmem

end Memory

/-- Settles O39: by the reads the two memories list the same cells, and lists in rising order with the same members are
equal. -/
theorem equalReadsMeanEqualMemories : Obligations.EqualReadsMeanEqualMemories := by
  intro m n hm hn h
  have : Std.Irrefl fun c d : Host.Cell => c.1 < d.1 := ⟨fun c => lt_irrefl c.1⟩
  have : Std.Antisymm fun c d : Host.Cell => c.1 < d.1 := ⟨fun _ _ h h' => absurd h h'.asymm⟩
  exact hm.1.eq_of_mem_iff hn.1 fun _ =>
    ⟨Memory.mem_of_read_eq hm h, Memory.mem_of_read_eq hn fun x hx => (h x hx).symm⟩

theorem State.setByte_setByte (s : State) (x : Nat) (v w : Byte) : (s.setByte x v).setByte x w = s.setByte x w := by
  simp only [State.setByte, Memory.write_write]

/-- A read of another address does not see a write (R60). -/
theorem memRead_setByte_of_ne {x y : Nat} (h : y ≠ x) (v : Byte) (s : State) :
    memRead y (s.setByte x v) = memRead y s := by
  rw [memRead, memRead, State.setByte_byteAt, if_neg h]

/-- Settles O38: a write in range changes the one cell and keeps nothing of the write before it. -/
theorem memoryReadsTheLatestWrite : Obligations.MemoryReadsTheLatestWrite := by
  intro x v s
  refine ⟨fun hx => ⟨_, memWrite_of_lt hx v s, ?same, fun y hy => memRead_setByte_of_ne hy _ s, fun w => ?again⟩,
    fun hx => ⟨memRead_of_le hx s, memWrite_of_le hx v s⟩⟩
  case same => rw [memRead_of_lt hx, State.setByte_byteAt_self]
  case again =>
    refine ⟨_, memWrite_of_lt hx w _, ?_⟩
    rw [memWrite_of_lt hx, State.setByte_setByte]

/-- Settles O37: the operand selects the register it names, and no other byte selects one. -/
theorem registerAccessChecksTheIndex : Obligations.RegisterAccessChecksTheIndex := by
  intro i v s
  refine ⟨fun j hj => ⟨readReg_of_eq hj s, _, writeReg_of_eq hj v s, ?value, s.setReg_sameRegsBut j _, fun _ => rfl,
    rfl, rfl, rfl⟩, fun hi => ⟨readReg_of_le hi s, writeReg_of_le hi v s⟩⟩
  case value => rw [State.setReg_reg_self, BitVec.toNat_ofNat]

end Sys2Proof.Machine
end

section
/-! PROOFS. The statements about reset, the load and a placed word (spec/70_reset_and_hazards.md section 1). -/

namespace Sys2Proof.Machine

/-- The register file at reset (R21). -/
theorem reset_reg (j : Fin 8) : State.reset.reg j = if j = 7 then 0xF4#8 else 0#8 := by
  revert j
  decide

/-- Settles O1: all but the register file is read off the definition. -/
theorem resetStateHoldsTheStatedValues : Obligations.ResetStateHoldsTheStatedValues :=
  ⟨reset_reg, rfl, rfl, fun _ => rfl, rfl, rfl⟩

/-- Settles O29: memory is empty, `pc` is 0, and the machine is running. -/
theorem resetMeetsTheInvariant : Obligations.ResetMeetsTheInvariant where
  memory := Memory.wf_nil
  pcRange := Nat.zero_le 256
  fault := nofun

/-- A program that fits is loaded (R242). -/
theorem load_of_le {P : List Byte} (h : P.length ≤ 256) :
    load P = .next { State.reset with mem := Memory.place [] 0 P } := if_pos h

/-- A program that does not fit is refused (R242). -/
theorem load_of_gt {P : List Byte} (h : 256 < P.length) : load P = .refused (.programTooLong P.length) :=
  if_neg (Nat.not_le.2 h)

/-- Settles O2: a program that fits is placed in the empty memory of the reset state. -/
theorem loadPlacesTheProgramAtZero : Obligations.LoadPlacesTheProgramAtZero := by
  refine fun P => ⟨fun hP => ?fits, load_of_gt⟩
  have hl := load_of_le hP
  refine ⟨_, hl, fun x hx => ?inside, fun x hx => ?past, load_wf hl, rfl, reset_reg, rfl, rfl⟩
  case inside => rw [load_byteAt hl, List.getD_eq_getElem P _ hx]
  case past => rw [load_byteAt hl, List.getD_eq_default P _ hx]

/-- A loaded state meets the invariant. -/
theorem load_stateInv {P : List Byte} {s : State} (h : load P = .next s) : StateInv s where
  memory := load_wf h
  pcRange := by rw [load_pc h]; exact Nat.zero_le 256
  fault := by rw [eq_of_load_eq_next h]; nofun

/-- A word is placed where three bytes can be fetched (log 16). -/
theorem placedPc_le (pc : Nat) : placedPc pc ≤ 253 := by
  rw [placedPc]
  split
  · next h => exact Nat.le_of_lt_add_one (Nat.lt_of_add_lt_add_right (n := 2) h)
  · exact Nat.zero_le 253

theorem placedPc_of_le {pc : Nat} (h : pc ≤ 253) : placedPc pc = pc :=
  if_pos (Nat.add_lt_add_right (Nat.lt_succ_of_le h) 2)

/-- A placed word lies at the placed `pc`, its first byte first. -/
theorem withFetchWord_byteAt_word (s : State) (nbits w : Nat) {k : Nat} (hk : k < 3) :
    (s.withFetchWord nbits w).byteAt (placedPc s.pc + k) = tableByte (tableWord nbits w) k := by
  refine (Memory.read_place _ s.mem (placedPc s.pc) _).trans ?_
  rw [dif_pos ⟨Nat.le_add_right _ k, by simpa using hk⟩]
  simp only [Nat.add_sub_cancel_left]
  interval_cases k <;> rfl

/-- Every byte outside a placed word reads as before. -/
theorem withFetchWord_byteAt_outside (s : State) (nbits w : Nat) {x : Nat}
    (hx : x < placedPc s.pc ∨ placedPc s.pc + 3 ≤ x) : (s.withFetchWord nbits w).byteAt x = s.byteAt x := by
  refine (Memory.read_place _ s.mem (placedPc s.pc) x).trans (dif_neg ?_)
  simp only [List.length_cons, List.length_nil]
  omega

/-- The next fetch latches the placed word. -/
theorem withFetchWord_fetches (s : State) (nbits w : Nat) :
    Fetches (s.withFetchWord nbits w) (tableByte (tableWord nbits w) 0) (tableByte (tableWord nbits w) 1)
      (tableByte (tableWord nbits w) 2) :=
  ⟨rfl, placedPc_le s.pc, withFetchWord_byteAt_word s nbits w (k := 0) (by decide),
    withFetchWord_byteAt_word s nbits w (k := 1) (by decide), withFetchWord_byteAt_word s nbits w (k := 2) (by decide)⟩

/-- A table word is decoded as its three bytes are. -/
theorem decode_of_decodeTableWord {nbits w : Nat} {i : Instr} (h : decodeTableWord nbits w = some i) :
    decode (tableByte (tableWord nbits w) 0) (tableByte (tableWord nbits w) 1) (tableByte (tableWord nbits w) 2) =
      .ok i := by
  rw [decodeTableWord] at h
  split at h
  · next hd => cases h; exact hd
  · cases h

/-- Settles O45: the placed bytes are fetched, and they decode to what the word does. -/
theorem placedWordIsRunNext : Obligations.PlacedWordIsRunNext := by
  intro s nbits w i h
  refine ⟨(withFetchWord_fetches s nbits w).step_eq_exec (decode_of_decodeTableWord h), rfl, fun _ _ => rfl,
    fun hpc => ⟨placedPc_of_le hpc, fun x hx => withFetchWord_byteAt_outside s nbits w ?_⟩⟩
  rwa [placedPc_of_le hpc]

end Sys2Proof.Machine
end

section
/-! PROOFS. The statements about the loop and its faults (spec/40_execution_loop.md, spec/60_exceptions.md), each from
the case analysis of the step. -/

namespace Sys2Proof.Machine

/-- Settles O3: `step` adds nothing to the execute phase of a fetch in range. -/
theorem stepRunsTheDecodedInstruction : Obligations.StepRunsTheDecodedInstruction :=
  fun _ _ _ _ _ hf hd => hf.step_eq_exec hd

theorem step_of_running {s : State} (hs : s.status = .running) : ∃ t, step s = .next t := by
  rcases faults_or_commits hs with ⟨o, q, hq⟩ | ⟨op, a, b, t, hf, hc⟩
  · exact ⟨_, hq.step_eq⟩
  · exact ⟨t, hc.step_eq hf⟩

/-- Settles O4: one answer for each status. -/
theorem stepAnswersExactlyWhileRunning : Obligations.StepAnswersExactlyWhileRunning := by
  refine fun s => ⟨⟨fun ⟨t, h⟩ => running_of_step h, step_of_running⟩, step_of_halted, fun r => step_of_faulted,
    fun r h => ?refused⟩
  cases hs : s.status with
  | running =>
    obtain ⟨t, ht⟩ := step_of_running hs
    rw [ht] at h; cases h
  | halted => rw [step_of_halted hs] at h; cases h
  | faulted _ => rw [step_of_faulted hs] at h; cases h

/-- Settles O5: a fault and the eight other commits leave a status other than Halted. -/
theorem onlyHltHalts : Obligations.OnlyHltHalts := by
  intro s t h
  constructor
  · intro ht
    rcases step_cases h with ⟨o, q, -, rfl⟩ | ⟨op, a, b, hf, hc⟩
    · cases ht
    · obtain ⟨hs, hpc, rfl, -, -⟩ := hf
      rcases hc.status_cases with ⟨hop, -⟩ | ⟨-, hst⟩
      · exact ⟨hpc, hop⟩
      · rw [hst, hs] at ht; cases ht
  · rintro ⟨hpc, hop⟩
    have hf := fetches_of_le (running_of_step h) hpc
    rw [hop] at hf
    rw [Commits.hlt.step_eq hf] at h
    cases h
    rfl

/-- Settles O7: the fetch faults, and its record is read off the `pc`. -/
theorem fetchOutsideMemoryFaults : Obligations.FetchOutsideMemoryFaults := by
  intro s hs
  have fault (hpc : 254 ≤ s.pc) : TakesFault (step s)
      ⟨.memoryRange, s.pc, if s.pc ≤ 255 then some (s.byteAt s.pc) else none, max 256 s.pc⟩ :=
    ⟨_, (Faults.fetch hs hpc).step_eq, rfl⟩
  refine ⟨fun h => ?_, fun h => ?_, fun h => ?_⟩
  · simpa [h] using fault (by omega)
  · simpa [h] using fault (by omega)
  · simpa [h, Nat.not_le.2 h] using fault (by omega)

theorem mem_allBytes (op : Byte) : op ∈ (List.range 256).map mask8 :=
  List.mem_map.2 ⟨op.toNat, List.mem_range.2 op.isLt, mask8_toNat op⟩

theorem nodup_allBytes : ((List.range 256).map mask8).Nodup := by
  refine List.nodup_range.map_on fun x hx y hy h => ?_
  have hmod : x % 256 = y % 256 := congrArg BitVec.toNat h
  rwa [Nat.mod_eq_of_lt (List.mem_range.1 hx), Nat.mod_eq_of_lt (List.mem_range.1 hy)] at hmod

/-- The bytes without a dispatch entry are the 256 bytes but for the nine of the table. -/
theorem length_undispatched : (((List.range 256).map mask8).filter (fun op => op ∉ dispatchTable)).length = 247 := by
  have hperm : (((List.range 256).map mask8).filter (· ∈ dispatchTable)).Perm dispatchTable :=
    (List.perm_ext_iff_of_nodup (nodup_allBytes.filter _) (by decide)).2 fun op => by
      simp only [List.mem_filter, mem_allBytes, true_and, decide_eq_true_eq]
  have htable : (((List.range 256).map mask8).filter (· ∈ dispatchTable)).length = 9 := hperm.length_eq
  have hsplit := List.length_eq_length_filter_add (l := (List.range 256).map mask8) (· ∈ dispatchTable)
  rw [htable, List.length_map, List.length_range] at hsplit
  simp only [decide_not]
  omega

/-- Settles O8: the fault follows from the opcode byte, and the one fault with that cause has such a byte. -/
theorem undispatchedOpcodesFault : Obligations.UndispatchedOpcodesFault := by
  refine ⟨length_undispatched, fun s op a b hf => ⟨fun hop => ?undispatched, fun hop t r h hr => ?dispatched⟩⟩
  case undispatched => exact ⟨_, (Faults.unknown hf hop).step_eq, rfl, step_of_faulted rfl⟩
  case dispatched =>
    obtain ⟨o, q, hq, -, rfl⟩ := step_faulted h hr
    cases hq with
    | fetch | operandA | operandB => nofun
    | unknown hf' hop' =>
      obtain ⟨-, -, rfl, -, -⟩ := hf
      obtain ⟨-, -, rfl, -, -⟩ := hf'
      exact absurd hop hop'

/-- The priority list once the fetch is in range: the decode, then operand `a`, then operand `b` (R207). -/
theorem Fetches.expectedFault_eq {s : State} {op a b : Byte} (hf : Fetches s op a b) : expectedFault s =
    if op ∉ dispatchTable then some ⟨.unknownInstruction, s.pc, some op, op.toNat⟩
    else if op ∈ checksOperandA ∧ 8 ≤ a.toNat then some ⟨.registerRange, s.pc, some op, a.toNat⟩
    else if op ∈ checksOperandB ∧ 8 ≤ b.toNat then some ⟨.registerRange, s.pc, some op, b.toNat⟩
    else none := by
  obtain ⟨-, hpc, rfl, rfl, rfl⟩ := hf
  rw [expectedFault]
  simp only [if_neg (show ¬ 256 ≤ s.pc by omega), if_neg (show ¬ 256 ≤ s.pc + 1 by omega),
    if_neg (show ¬ 256 ≤ s.pc + 2 by omega)]

/-- The priority list while the fetch is out of range: the first address of 256 or more (R202, R207). -/
theorem expectedFault_of_ge {s : State} (h : 254 ≤ s.pc) : expectedFault s =
    some ⟨.memoryRange, s.pc, if s.pc ≤ 255 then some (s.byteAt s.pc) else none, max 256 s.pc⟩ := by
  rw [expectedFault]
  rcases Nat.lt_or_ge s.pc 256 with hlt | hge
  · have hpc : s.pc = 254 ∨ s.pc = 255 := by omega
    rcases hpc with hpc | hpc <;> simp [hpc]
  · simp [hge, Nat.not_le.2 hge]

theorem checksOperandA_subset {op : Byte} (h : op ∈ checksOperandA) : op ∈ dispatchTable := by
  simp only [checksOperandA, List.mem_cons, List.not_mem_nil, or_false] at h
  rcases h with rfl | rfl | rfl | rfl | rfl | rfl | rfl <;> decide

/-- A fault taken is the first of the priority list. -/
theorem Faults.expectedFault_eq {s : State} {o : Option Byte} {q : Raise} (h : Faults s o q) :
    expectedFault s = some ⟨q.cause, s.pc, o, q.info⟩ := by
  cases h with
  | fetch _ hpc => exact expectedFault_of_ge hpc
  | unknown hf hop => rw [hf.expectedFault_eq, if_pos hop]
  | operandA hf hop ha =>
    rw [hf.expectedFault_eq, if_neg (not_not.2 (checksOperandA_subset hop)), if_pos ⟨hop, ha⟩]
  | operandB hf hop ha hb =>
    rw [hf.expectedFault_eq, if_neg (not_not.2 (checksOperandA_subset (checksOperandB_subset hop))), if_neg (by omega),
      if_pos ⟨hop, hb⟩]

/-- Where a step commits, no condition of the priority list holds. -/
theorem Commits.expectedFault_eq {s t : State} {op a b : Byte} (h : Commits s op a b t) (hf : Fetches s op a b) :
    expectedFault s = none := by
  rw [hf.expectedFault_eq]
  cases h with
  | hlt | ret => rfl
  | ldi ha | prn ha | push ha | pop ha | call ha =>
    simp [dispatchTable, checksOperandA, checksOperandB, ha]
  | mul ha hb | add ha hb =>
    simp [dispatchTable, checksOperandA, checksOperandB, ha, hb, Nat.not_le.2 (Fin.isLt _)]

/-- Settles O9: a fault taken is the first of the list, and a commit has none. -/
theorem stepFaultsInThePriorityOrder : Obligations.StepFaultsInThePriorityOrder := by
  intro s hs
  rcases faults_or_commits hs with ⟨o, q, hq⟩ | ⟨op, a, b, t, hf, hc⟩
  · refine ⟨_, hq.step_eq, ?_⟩
    rw [hq.expectedFault_eq]
    rfl
  · refine ⟨t, hc.step_eq hf, ?_⟩
    rw [hc.expectedFault_eq hf]
    exact hc.not_faulted hf

/-- The opcode a fault records is the byte at `pc`, if that is a byte of memory (R33). -/
theorem Faults.opcode_cases {s : State} {o : Option Byte} {q : Raise} (h : Faults s o q) :
    o = none ∧ 256 ≤ s.pc ∨ o = some (s.byteAt s.pc) ∧ s.pc ≤ 255 := by
  cases h with
  | fetch =>
    by_cases hpc : s.pc ≤ 255
    · exact .inr ⟨if_pos hpc, hpc⟩
    · exact .inl ⟨if_neg hpc, Nat.lt_of_not_le hpc⟩
  | unknown hf | operandA hf | operandB hf =>
    obtain ⟨-, hpc, rfl, -, -⟩ := hf
    exact .inr ⟨rfl, hpc.trans (by decide)⟩

/-- Settles O10: the faulted state is `takeFault` of the state at the start. -/
theorem faultDiscardsTheStep : Obligations.FaultDiscardsTheStep := by
  intro s t r h hr
  obtain ⟨o, q, hq, rfl, rfl⟩ := step_faulted h hr
  exact ⟨rfl, rfl, hq.opcode_cases⟩

/-- Settles O11: the tag check comes first, and none of the four faults of a step has that cause. -/
theorem unsupportedAluOpIsUnreachable : Obligations.UnsupportedAluOpIsUnreachable := by
  refine ⟨fun n a b s => rfl, fun s t r h hr => ?_⟩
  obtain ⟨o, q, hq, -, rfl⟩ := step_faulted h hr
  cases hq <;> nofun

end Sys2Proof.Machine
end

section
/-! PROOFS. The statements about single instructions (spec/41_load_and_output.md to spec/44_call_return.md): each joins
the encoding, the fetch, the equation of the execute phase, and the rules of the state operations it names. -/

namespace Sys2Proof.Machine

/-- Taking a fault records it. -/
theorem takesFault_takeFault {x : Host.Outcome State Fault Refusal} {o : Option Byte} {q : Raise} {s : State}
    (h : x = .next (takeFault o q s)) : TakesFault x ⟨q.cause, s.pc, o, q.info⟩ := ⟨_, h, rfl⟩

/-! ### LDI, PRN, ADD, MUL -/

/-- Settles O13: one register write, and the advance. -/
theorem ldiLoadsTheImmediate : Obligations.LdiLoadsTheImmediate := by
  refine fun a imm s => ⟨rfl, fun hf => hf.step_eq_exec rfl, fun j ha => ⟨_, exec_ldi_named ha imm s, ?named⟩,
    fun ha => takesFault_takeFault (exec_ldi_out s ha imm), highFetchFaults s⟩
  exact ⟨s.setReg_reg_self j imm, rfl, s.setReg_sameRegsBut j imm, fun _ => rfl, rfl, rfl⟩

/-- Settles O14: one output event, and the advance. -/
theorem prnAppendsTheRegister : Obligations.PrnAppendsTheRegister := by
  refine fun a s => ⟨rfl, fun b hf => hf.step_eq_exec rfl, fun j ha => ⟨_, exec_prn_named ha s, ?named⟩,
    fun ha => takesFault_takeFault (exec_prn_out s ha), highFetchFaults s⟩
  exact ⟨rfl, rfl, fun _ _ => rfl, fun _ => rfl, rfl⟩

/-- Settles O15: the sum of two bytes is their sum modulo 256. -/
theorem addWritesTheSumModulo256 : Obligations.AddWritesTheSumModulo256 := by
  refine fun a b s => ⟨rfl, fun hf => hf.step_eq_exec rfl, fun j k ha hb => ⟨_, exec_add_named ha hb s, ?named⟩,
    fun ha => takesFault_takeFault (exec_add_a_out s ha b),
    fun ha hb => takesFault_takeFault (exec_add_b_out s (j := ⟨a.toNat, ha⟩) rfl hb), highFetchFaults s⟩
  refine ⟨?sum, rfl, s.setReg_sameRegsBut j _, fun _ => rfl, rfl, rfl⟩
  rw [State.advance_reg, State.setReg_reg_self, BitVec.toNat_add]

/-- Settles O16: the product of two bytes is their product modulo 256. -/
theorem mulWritesTheProductModulo256 : Obligations.MulWritesTheProductModulo256 := by
  refine fun a b s => ⟨rfl, fun hf => hf.step_eq_exec rfl, fun j k ha hb => ⟨_, exec_mul_named ha hb s, ?named⟩,
    fun ha => takesFault_takeFault (exec_mul_a_out s ha b),
    fun ha hb => takesFault_takeFault (exec_mul_b_out s (j := ⟨a.toNat, ha⟩) rfl hb), highFetchFaults s⟩
  refine ⟨?product, rfl, s.setReg_sameRegsBut j _, fun _ => rfl, rfl, rfl⟩
  rw [State.advance_reg, State.setReg_reg_self, BitVec.toNat_mul]

/-- ADD and MUL on named registers write a commutative and associative function of the two bytes (R145). -/
theorem alu_comm_assoc {op : AluTag} (h : op = .add ∨ op = .mul) : ∃ g : Byte → Byte → Byte,
    (∀ x y, g x y = g y x) ∧ (∀ x y z, g (g x y) z = g x (g y z)) ∧
    ∀ {a b : Byte} {j k : Fin 8}, a.toNat = j.val → b.toNat = k.val → ∀ s : State,
      alu op a b s = .ok (s.setReg j (g (s.reg j) (s.reg k))) := by
  rcases h with rfl | rfl
  · refine ⟨(· + ·), BitVec.add_comm, BitVec.add_assoc, fun ha hb s => ?_⟩
    rw [alu_ok (op := .add) rfl ha hb, ← BitVec.toNat_add, mask8_toNat]
  · refine ⟨(· * ·), BitVec.mul_comm, BitVec.mul_assoc, fun ha hb s => ?_⟩
    rw [alu_ok (op := .mul) rfl ha hb, ← BitVec.toNat_mul, mask8_toNat]

/-- Settles O17: the registers are distinct, so each read sees the value of the start or of the write before it. -/
theorem aluIsCommutativeAndAssociative : Obligations.AluIsCommutativeAndAssociative := by
  intro op a b c j k l s hop ha hb hc hjk hkl hjl
  obtain ⟨g, comm, assoc, alu_eq⟩ := alu_comm_assoc hop
  refine ⟨_, _, _, _, _, alu_eq ha hb s, alu_eq hb ha s, ?commutes, alu_eq ha hc _, alu_eq hb hc s, alu_eq ha hb _,
    ?associates⟩
  case commutes => rw [State.setReg_reg_self, State.setReg_reg_self, comm]
  case associates =>
    rw [State.setReg_reg_self, State.setReg_reg_self, State.setReg_reg_self, State.setReg_reg_self,
      State.setReg_reg_of_ne _ hjl.symm, State.setReg_reg_of_ne _ hjk, assoc]

/-! ### PUSH, POP -/

/-- Settles O18: the state after the push of the value read before it, advanced. -/
theorem pushStoresBelowTheStackPointer : Obligations.PushStoresBelowTheStackPointer := by
  refine fun a s => ⟨rfl, fun b hf => hf.step_eq_exec rfl, fun j ha => ⟨_, exec_push_named ha s, ?named⟩,
    fun ha => takesFault_takeFault (exec_push_out s ha), highFetchFaults s⟩
  exact ⟨s.pushed_sp (s.reg j), s.pushed_byteAt_top (s.reg j), rfl, s.pushed_sameRegsBut (s.reg j),
    s.pushed_sameMemoryBut (s.reg j), rfl, rfl⟩

/-- Frame of the two register writes of a POP. -/
theorem setSp_setReg_sameRegsBut (s : State) (j : Fin 8) (v w : Byte) :
    SameRegsBut [j, 7] s ((s.setSp v).setReg j w) := by
  intro k hk
  simp only [List.mem_cons, List.not_mem_nil, or_false, not_or] at hk
  rw [State.setReg_reg_of_ne _ hk.1, State.setSp_reg, if_neg hk.2]

/-- The SP a POP of another register leaves. -/
theorem setSp_setReg_sp (s : State) {j : Fin 8} (h : j ≠ 7) (v w : Byte) : ((s.setSp v).setReg j w).sp = v := by
  rw [State.sp_eq_reg, State.setReg_reg_of_ne _ h.symm, ← State.sp_eq_reg, State.setSp_sp]

/-- Settles O19: SP is written first, the operand after it, so for R7 the popped byte stays. -/
theorem popLoadsTheTopOfStack : Obligations.PopLoadsTheTopOfStack := by
  refine fun a s => ⟨rfl, fun b hf => hf.step_eq_exec rfl, fun j ha => ⟨_, exec_pop_named ha s, ?named⟩,
    fun ha => takesFault_takeFault (exec_pop_out s ha), highFetchFaults s⟩
  exact ⟨State.setReg_reg_self _ j _, fun hj => setSp_setReg_sp s hj _ _, rfl, setSp_setReg_sameRegsBut s j _ _,
    fun _ => rfl, rfl, rfl⟩

/-- Settles O20: the POP finds the pushed byte at the SP the PUSH left, and its increment undoes the decrement. -/
theorem pushThenPopRoundTrip : Obligations.PushThenPopRoundTrip := by
  intro a b j k s ha hb
  obtain ⟨-, -, push, -⟩ := pushStoresBelowTheStackPointer a s
  obtain ⟨t, ht, hsp, htop, -⟩ := push j ha
  obtain ⟨-, -, pop, -⟩ := popLoadsTheTopOfStack b t
  obtain ⟨u, hu, hk, husp, -⟩ := pop k hb
  have hval : u.reg k = s.reg j := by rw [hk, hsp, htop]
  refine ⟨t, u, ht, hu, hval, fun hk7 => ?other, ?seven⟩
  case other => rw [husp hk7, hsp, BitVec.sub_add_cancel]
  case seven =>
    rintro rfl
    rw [u.sp_eq_reg, hval]

/-- Settles O21: SP is a byte, so it is an address in range and its changes wrap. -/
theorem stackHelpersNeverRaise : Obligations.StackHelpersNeverRaise := by
  refine fun s => ⟨fun v => ⟨_, pushValue_eq_pushed v s, ?push⟩, _, popValue_eq s, ?pop⟩
  case push =>
    rw [State.pushed_sp]
    refine ⟨by bv_omega, ?_, s.pushed_sameMemoryBut _, s.pushed_sameRegsBut _, rfl, rfl, rfl⟩
    rw [State.pushed_byteAt_top, BitVec.toNat_ofNat]
  case pop =>
    rw [State.setSp_sp, BitVec.toNat_add]
    exact ⟨rfl, fun _ => rfl, s.setSp_sameRegsBut _, rfl, rfl, rfl⟩

/-! ### CALL, RET -/

/-- The target of a CALL is the register after the push (R181). -/
theorem setSp_reg_toNat (s : State) (j : Fin 8) (v : Byte) :
    ((s.setSp v).reg j).toNat = (if j = 7 then v else s.reg j).toNat := by
  rw [State.setSp_reg]

/-- A return address that a fetch allows is a byte (R180). -/
theorem mask8_returnAddress {s : State} (h : s.pc ≤ 253) : (mask8 (returnAddress s)).toNat = s.pc + 2 := by
  rw [BitVec.toNat_ofNat, returnAddress]
  omega

/-- Settles O22: the state after the push of the return address, with the jump. -/
theorem callPushesTheReturnAddressAndJumps : Obligations.CallPushesTheReturnAddressAndJumps := by
  refine fun a s => ⟨rfl, fun b hf => hf.step_eq_exec rfl, fun j ha hpc => ⟨_, exec_call_named ha s, ?named⟩,
    fun ha => takesFault_takeFault (exec_call_out s ha), highFetchFaults s⟩
  refine ⟨s.pushed_sp (mask8 (returnAddress s)), ?address, setSp_reg_toNat s j _,
    s.pushed_sameRegsBut (mask8 (returnAddress s)), s.pushed_sameMemoryBut (mask8 (returnAddress s)), rfl, rfl⟩
  rw [State.jump_byteAt, State.setByte_byteAt_self, mask8_returnAddress hpc]

/-- Settles O23: the increment of SP, with the jump to the byte it leaves behind. -/
theorem retJumpsToThePoppedByte : Obligations.RetJumpsToThePoppedByte := by
  refine fun s => ⟨rfl, fun a b hf => hf.step_eq_exec rfl, ⟨_, exec_ret s, ?named⟩, highFetchFaults s⟩
  exact ⟨rfl, s.setSp_sp _, s.setSp_sameRegsBut _, fun _ => rfl, rfl, rfl⟩

/-- Settles O24: the RET pops the return address from where the CALL pushed it. -/
theorem callThenReturnRoundTrip : Obligations.CallThenReturnRoundTrip := by
  intro a j s ha hpc
  obtain ⟨-, -, call, -⟩ := callPushesTheReturnAddressAndJumps a s
  obtain ⟨t, ht, hsp, haddr, -⟩ := call j ha hpc
  refine ⟨t, ht, fun u husp htop => ?_⟩
  obtain ⟨-, -, ⟨v, hv, hvpc, hvsp, -⟩, -⟩ := retJumpsToThePoppedByte u
  refine ⟨v, hv, ?resumes, ?restores⟩
  case resumes => rw [hvpc, husp, htop, hsp, haddr]
  case restores => rw [hvsp, husp, hsp, BitVec.sub_add_cancel]

/-! ### HLT, NOP and the reserved constants -/

/-- Settles O25: HLT is the change of status alone. -/
theorem hltHaltsTheRun : Obligations.HltHaltsTheRun :=
  fun s => ⟨rfl, fun _ _ hf => hf.step_eq_exec rfl,
    ⟨s.halt, exec_hlt s, s.halt_status, fun _ _ => rfl, fun _ => rfl, rfl⟩, highFetchFaults s⟩

/-- Settles O26: 0x00 is no byte of the dispatch table. -/
theorem nopTakesUnknownInstruction : Obligations.NopTakesUnknownInstruction :=
  fun s => ⟨rfl, fun _ _ hf => hf.step_eq_exec rfl,
    takesFault_takeFault (exec_undispatched (i := .nop) (by decide) s), highFetchFaults s⟩

/-- Settles O27: the three values are no bytes of the dispatch table. -/
theorem reservedConstantsTakeUnknownInstruction : Obligations.ReservedConstantsTakeUnknownInstruction :=
  fun s => ⟨fun _ _ hf => hf.step_eq_exec rfl, fun _ _ hf => hf.step_eq_exec rfl, fun _ _ hf => hf.step_eq_exec rfl,
    takesFault_takeFault (exec_undispatched (i := .ld) (by decide) s),
    takesFault_takeFault (exec_undispatched (i := .st) (by decide) s),
    takesFault_takeFault (exec_undispatched (i := .pra) (by decide) s)⟩

/-! ### The PC delta -/

/-- A dispatched instruction that does not transfer control, with named registers, advances by its length (R87). -/
theorem exec_advances_by_length {i : Instr} (hd : i.dispatched = true) (hw : i.wellFormed = true) (hhlt : i ≠ .hlt)
    (hret : i ≠ .ret) (hcall : ∀ a, i ≠ .call a) (s : State) :
    ∃ t, exec i s = .next t ∧ t.pc = s.pc + (encode i).length := by
  cases i with
  | nop | ld | st | pra => exact absurd hd Bool.false_ne_true
  | hlt => exact absurd rfl hhlt
  | ret => exact absurd rfl hret
  | call a => exact absurd rfl (hcall a)
  | ldi a imm =>
    obtain ⟨j, ha⟩ := (registerNamed_iff a).1 hw
    exact ⟨_, exec_ldi_named ha imm s, rfl⟩
  | prn a =>
    obtain ⟨j, ha⟩ := (registerNamed_iff a).1 hw
    exact ⟨_, exec_prn_named ha s, rfl⟩
  | mul a b =>
    obtain ⟨⟨j, ha⟩, k, hb⟩ := (registerNamed_both_iff a b).1 hw
    exact ⟨_, exec_mul_named ha hb s, rfl⟩
  | add a b =>
    obtain ⟨⟨j, ha⟩, k, hb⟩ := (registerNamed_both_iff a b).1 hw
    exact ⟨_, exec_add_named ha hb s, rfl⟩
  | push a =>
    obtain ⟨j, ha⟩ := (registerNamed_iff a).1 hw
    exact ⟨_, exec_push_named ha s, rfl⟩
  | pop a =>
    obtain ⟨j, ha⟩ := (registerNamed_iff a).1 hw
    exact ⟨_, exec_pop_named ha s, rfl⟩

/-- The lengths of the dispatched instructions that do not transfer control (R81, R86). -/
theorem encode_length_cases {i : Instr} (hd : i.dispatched = true) (hhlt : i ≠ .hlt) (hret : i ≠ .ret)
    (hcall : ∀ a, i ≠ .call a) :
    (encode i).length = 3 ∧ i.opcode ∈ [0x82#8, 0xA2#8, 0xA0#8] ∧ i.opcode ∉ [0x47#8, 0x45#8, 0x46#8] ∨
      (encode i).length = 2 ∧ i.opcode ∉ [0x82#8, 0xA2#8, 0xA0#8] ∧ i.opcode ∈ [0x47#8, 0x45#8, 0x46#8] := by
  cases i with
  | nop | ld | st | pra => exact absurd hd Bool.false_ne_true
  | hlt => exact absurd rfl hhlt
  | ret => exact absurd rfl hret
  | call a => exact absurd rfl (hcall a)
  | ldi | mul | add => exact .inl ⟨rfl, by simp only [Instr.opcode]; decide, by simp only [Instr.opcode]; decide⟩
  | prn | push | pop => exact .inr ⟨rfl, by simp only [Instr.opcode]; decide, by simp only [Instr.opcode]; decide⟩

/-- Settles O6: the forms that advance by their length, then CALL, RET and HLT by their equations. -/
theorem pcDeltaEqualsLength : Obligations.PcDeltaEqualsLength := by
  refine ⟨fun i s hd hw hhlt hret hcall => ?advances,
    fun a j s ha => ⟨rfl, _, exec_call_named ha s, ?target, ?address⟩,
    fun s => ⟨rfl, _, exec_ret s, rfl⟩, fun s => ⟨rfl, _, exec_hlt s, rfl⟩⟩
  case advances =>
    obtain ⟨t, ht, hpc⟩ := exec_advances_by_length hd hw hhlt hret hcall s
    refine ⟨t, ht, hpc, ?_⟩
    rcases encode_length_cases hd hhlt hret hcall with ⟨hlen, hin, hout⟩ | ⟨hlen, hout, hin⟩
    · simp [hlen, hin, hout]
    · simp [hlen, hin, hout]
  case target => exact setSp_reg_toNat s j _
  case address =>
    intro hpc
    rw [State.jump_sp, State.jump_byteAt, State.setByte_sp, State.setSp_sp, State.setByte_byteAt_self,
      mask8_returnAddress hpc]

end Sys2Proof.Machine
end

section
/-! PROOFS. The whole-machine rules (spec/20_memory.md section 3 to 5, spec/41_load_and_output.md section 3): a fault
changes the status alone, so each rule is read off what a step commits. -/

namespace Sys2Proof.Machine

/-- PRN alone emits. -/
theorem Commits.out_eq {s t : State} {op a b : Byte} (h : Commits s op a b t)
    (hop : op ≠ 0x47#8 ∨ 8 ≤ a.toNat) : t.out = s.out := by
  cases h with
  | prn ha =>
    rcases hop with hop | hop
    · exact absurd rfl hop
    · omega
  | hlt | ldi | mul | add | push | pop | call | ret => rfl

/-- Settles O31: a PRN with a named register commits, and no other commit emits. -/
theorem outputGrowsOnlyByPrn : Obligations.OutputGrowsOnlyByPrn := by
  intro s t h
  refine ⟨fun j hpc hop ha => ?prn, fun hno => ?other⟩
  case prn =>
    have hf := fetches_of_le (running_of_step h) hpc
    rw [hop] at hf
    rw [(Commits.prn ha).step_eq hf] at h
    cases h
    rfl
  case other =>
    rcases step_cases h with ⟨o, q, -, rfl⟩ | ⟨op, a, b, ⟨-, hpc, rfl, rfl, rfl⟩, hc⟩
    · rfl
    · exact hc.out_eq (hno.resolve_left (by omega))

/-- A step keeps the output log and at most adds to it. -/
theorem step_out_grows {s t : State} (h : step s = .next t) : s.out <+: t.out := by
  obtain ⟨prn, other⟩ := outputGrowsOnlyByPrn s t h
  by_cases hno : 254 ≤ s.pc ∨ s.byteAt s.pc ≠ 0x47#8 ∨ 8 ≤ (s.byteAt (s.pc + 1)).toNat
  · rw [other hno]
  · obtain ⟨hpc, hop, ha⟩ : s.pc < 254 ∧ s.byteAt s.pc = 0x47#8 ∧ (s.byteAt (s.pc + 1)).toNat < 8 := by
      simpa [not_or] using hno
    rw [prn ⟨_, ha⟩ (Nat.le_of_lt_succ hpc) hop rfl]
    exact List.prefix_append _ _

/-- Settles O30: the invariant holds at the load and every step keeps it, and every step keeps the log. -/
theorem runsOfLoadedProgramsKeepTheInvariant : Obligations.RunsOfLoadedProgramsKeepTheInvariant := by
  intro P s t u hl hst htu
  have ht : StateInv t := hst.induct everyStepKeepsTheInvariant (load_stateInv hl)
  exact ⟨ht, htu.induct everyStepKeepsTheInvariant ht,
    htu.induct (p := fun v => t.out <+: v.out) (fun _ _ hv h => hv.trans (step_out_grows h)) (List.prefix_refl _)⟩

/-- Settles O32: the memory after a commit is the one before it, or one byte below the top of the stack is written. -/
theorem onlyPushAndCallWriteMemory : Obligations.OnlyPushAndCallWriteMemory := by
  intro s t h
  rcases step_cases h with ⟨o, q, -, rfl⟩ | ⟨op, a, b, ⟨-, hpc, rfl, rfl, rfl⟩, hc⟩
  · exact ⟨fun _ _ => rfl, fun _ _ => rfl⟩
  · rcases hc.mem_cases with hm | ⟨hop, v, hm⟩
    · have same : SameMemory s t := fun x => congrArg (Memory.read · x) hm
      exact ⟨fun x _ => same x, fun _ => same⟩
    · refine ⟨fun x hx => ?_, fun hno => ?_⟩
      · rw [State.byteAt, hm, Memory.read_write, if_neg hx, State.byteAt]
      · exact absurd hop (hno.resolve_left (by omega))

/-- A register that a write of register `k` changes is `k`. -/
theorem eq_of_setReg_reg_ne {s : State} {j k : Fin 8} {v : Byte} (h : (s.setReg k v).reg j ≠ s.reg j) : j = k :=
  by_contra fun hjk => h (s.setReg_reg_of_ne hjk v)

/-- A register that a commit changes is its destination, or SP. -/
theorem Commits.reg_cases {s t : State} {op a b : Byte} (h : Commits s op a b t) {j : Fin 8}
    (hj : t.reg j ≠ s.reg j) : op ∈ [0x82#8, 0xA0#8, 0xA2#8, 0x46#8] ∧ a.toNat = j.val ∨
      op ∈ [0x45#8, 0x46#8, 0x50#8, 0x11#8] ∧ j = 7 := by
  cases h with
  | hlt | prn => exact absurd rfl hj
  | ldi ha | mul ha _ | add ha _ =>
    obtain rfl := eq_of_setReg_reg_ne hj
    exact .inl ⟨by decide, ha⟩
  | push | call | ret => exact .inr ⟨by decide, eq_of_setReg_reg_ne hj⟩
  | @pop _ _ k ha =>
    by_cases hjk : j = k
    · exact .inl ⟨by decide, hjk ▸ ha⟩
    · rw [State.advance_reg, State.setReg_reg_of_ne _ hjk] at hj
      exact .inr ⟨by decide, eq_of_setReg_reg_ne hj⟩

/-- Settles O33: a fault changes no register, and a commit those its opcode names. -/
theorem onlyNamedRegistersChange : Obligations.OnlyNamedRegistersChange := by
  intro s t j h hj
  rcases step_cases h with ⟨o, q, -, rfl⟩ | ⟨op, a, b, ⟨-, hpc, rfl, rfl, rfl⟩, hc⟩
  · exact absurd rfl hj
  · exact ⟨hpc, hc.reg_cases hj⟩

/-- Settles O35: the pushed byte lies at the `pc` the PUSH leaves, which is in range of the fetch. -/
theorem pushIsSeenByTheNextFetch : Obligations.PushIsSeenByTheNextFetch := by
  intro s a b j hf ha hland hpc
  refine ⟨_, _, (Commits.push ha).step_eq hf, rfl, fetch_of_le hpc, ?_⟩
  rw [State.advance_byteAt, State.advance_pc, State.pushed_pc, ← hland, State.pushed_byteAt_top]

end Sys2Proof.Machine
end

section
/-! PROOFS. The statement about the bytes a step reads (spec/20_memory.md section 3): the step is run again on the same
state with another memory. -/

namespace Sys2Proof.Machine

/-- `s` with the memory `m`. -/
def State.withMem (s : State) (m : Memory) : State := { s with mem := m }

/-- A state that agrees with `s` on all but memory is `s` with its memory. -/
theorem State.eq_withMem {s s' : State} (hst : s.status = s'.status) (hpc : s.pc = s'.pc) (hout : s.out = s'.out)
    (hreg : ∀ j : Fin 8, s.reg j = s'.reg j) : s' = s.withMem s'.mem := by
  have hregs := State.regs_ext hreg
  cases s
  cases s'
  simp_all [State.withMem]

/-- Where two memories read alike before a write to both, they read alike after it. -/
theorem Memory.read_write_congr {m n : Memory} {y : Nat} (h : m.read y = n.read y) (x : Nat) (v : Byte) :
    (m.write x v).read y = (n.write x v).read y := by
  rw [read_write, read_write, h]

section
variable {s t : State} {m : Memory} {op a b : Byte} {o : Option Byte} {q : Raise}

/-- The fetch reads three bytes. -/
theorem Fetches.withMem (hf : Fetches s op a b)
    (h : ∀ x, x = s.pc ∨ x = s.pc + 1 ∨ x = s.pc + 2 → x < 256 → s.byteAt x = m.read x) :
    Fetches (s.withMem m) op a b := by
  obtain ⟨hs, hpc, rfl, rfl, rfl⟩ := hf
  exact ⟨hs, hpc, (h _ (.inl rfl) (by omega)).symm, (h _ (.inr (.inl rfl)) (by omega)).symm,
    (h _ (.inr (.inr rfl)) (by omega)).symm⟩

/-- A fault is that of the bytes the fetch reads. -/
theorem Faults.withMem (hq : Faults s o q)
    (h : ∀ x, x = s.pc ∨ x = s.pc + 1 ∨ x = s.pc + 2 → x < 256 → s.byteAt x = m.read x) :
    Faults (s.withMem m) o q := by
  cases hq with
  | fetch hs hpc =>
    have hop : (if s.pc ≤ 255 then some (s.byteAt s.pc) else none) =
        if s.pc ≤ 255 then some ((s.withMem m).byteAt s.pc) else none :=
      ite_congr rfl (fun hle => congrArg some (h _ (.inl rfl) (Nat.lt_succ_of_le hle))) fun _ => rfl
    rw [hop]
    exact .fetch hs hpc
  | unknown hf hop => exact .unknown (hf.withMem h) hop
  | operandA hf hop ha => exact .operandA (hf.withMem h) hop ha
  | operandB hf hop ha hb => exact .operandB (hf.withMem h) hop ha hb

/-- A commit reads no byte but, for POP and RET, the one at SP, and writes to either memory alike. -/
theorem Commits.withMem (hc : Commits s op a b t)
    (h : op ∈ [0x46#8, 0x11#8] → s.byteAt s.sp.toNat = m.read s.sp.toNat) :
    ∃ n, Commits (s.withMem m) op a b (t.withMem n) ∧ ∀ x, s.byteAt x = m.read x → t.byteAt x = n.read x := by
  cases hc with
  | hlt => exact ⟨m, .hlt, fun _ => id⟩
  | ldi ha => exact ⟨m, .ldi ha, fun _ => id⟩
  | prn ha => exact ⟨m, .prn ha, fun _ => id⟩
  | mul ha hb => exact ⟨m, .mul ha hb, fun _ => id⟩
  | add ha hb => exact ⟨m, .add ha hb, fun _ => id⟩
  | push ha => exact ⟨m.write _ _, .push ha, fun _ hx => Memory.read_write_congr hx _ _⟩
  | call ha => exact ⟨m.write _ _, .call ha, fun _ hx => Memory.read_write_congr hx _ _⟩
  | pop ha =>
    rw [h (by decide)]
    exact ⟨m, .pop ha, fun _ => id⟩
  | ret =>
    rw [h (by decide)]
    exact ⟨m, .ret, fun _ => id⟩

end

/-- Settles O34: the second state is the first with another memory, in which the same case of the step holds. -/
theorem stepDependsOnlyOnTheBytesItReads : Obligations.StepDependsOnlyOnTheBytesItReads := by
  intro s s' hs hs' hpc hout hreg hread
  have hread_fetch : ∀ x, x = s.pc ∨ x = s.pc + 1 ∨ x = s.pc + 2 → x < 256 → s.byteAt x = s'.mem.read x := by
    intro x hx hlt
    exact hread x hlt (by tauto)
  rw [State.eq_withMem (hs.trans hs'.symm) hpc hout hreg]
  rcases faults_or_commits hs with ⟨o, q, hq⟩ | ⟨op, a, b, t, hf, hc⟩
  · exact ⟨_, _, hq.step_eq, (hq.withMem hread_fetch).step_eq, rfl, rfl, rfl, fun _ => rfl, fun _ => id⟩
  · have hread_top : op ∈ [0x46#8, 0x11#8] → s.byteAt s.sp.toNat = s'.mem.read s.sp.toNat := by
      obtain ⟨-, -, rfl, -, -⟩ := hf
      exact fun hop => hread _ (BitVec.isLt _) (.inr (.inr (.inr ⟨rfl, hop⟩)))
    obtain ⟨n, hc', hmem⟩ := hc.withMem hread_top
    exact ⟨t, t.withMem n, hc.step_eq hf, hc'.step_eq (hf.withMem hread_fetch), rfl, rfl, rfl, fun _ => rfl, hmem⟩

end Sys2Proof.Machine
end
